-- ==== Sys2Proof/Word.lean ====
section
/-! DEFINITION. Word.lean: the widths of the block (00_scope.md R5, R6; 10_state.md R27, R28). -/

namespace Sys2Proof

/-- A bus word, a register image or a command word: 32 bits, bit 0 the least significant (00_scope.md R6, 20_memory.md R57). -/
abbrev Word := BitVec 32

/-- The packed form of a vector or of one matrix row: element `j` at bit `j`, at most ten elements
(00_scope.md R8, 10_state.md R27, R28). -/
abbrev Packed := BitVec 10

end Sys2Proof
end

