-- ==== Sys2Proof/Config.lean ====
section
/-! DEFINITION. Config.lean: the parameters of 00_scope.md R5. K, N, NCW and MAXDIM are numbers; SW and G_RESET are the
two OPEN parameters a model takes as arguments (10_state.md R31, R32). Whether a configuration is one the spec allows
is `configLegal` in Machine/Codebook.lean. -/

namespace Sys2Proof

/-- K, the source vector length and generator height (R5). -/
@[simp] abbrev sourceLen : Nat := 6

/-- N, the codeword length and generator width (R5). -/
@[simp] abbrev codeLen : Nat := 10

/-- NCW, the number of codebook entries (R5). -/
@[simp] abbrev codebookSize : Nat := 64

/-- MAXDIM, the largest vector length, matrix height or matrix width (R5, R29). -/
@[simp] abbrev maxDim : Nat := 10

/-- The six packed rows of a 6 x 10 generator matrix (10_state.md R32). -/
abbrev GenRows := Vector Packed 6

/-- The open parameters (00_scope.md R5). They are fixed for the life of the block (10_state.md R40). -/
structure Config where
  /-- SW, the soft-sample width in bits: 2 to 27 (10_state.md R31). -/
  sw : Nat
  /-- G_RESET, the generator loaded at reset, or none (70_reset_and_hazards.md R182). -/
  gReset : Option GenRows
  deriving DecidableEq, Repr

/-- The reference values the spec names for both parameters (00_scope.md R5). -/
def Config.reference : Config := { sw := 16, gReset := none }

end Sys2Proof
end

