-- ==== Sys2Proof/Syntax.lean ====
section
/-! DEFINITION. Syntax.lean: the thirteen commands of 30_encoding.md R84, one constructor per row of
spec/opcode_table.json, with the operands each names (R82, R83). -/

namespace Sys2Proof

/-- The number of a vector register `V[0]` to `V[15]` (operand class V of R82). -/
abbrev VIdx := Fin 16

/-- The number of a matrix register `M[0]` to `M[3]` (operand class M of R82). -/
abbrev MIdx := Fin 4

/-- The number of a soft-sample register `S[0]` to `S[3]` (operand class S of R82). -/
abbrev SIdx := Fin 4

/-- The thirteen assigned opcodes (R84). -/
inductive Opcode where
  | nop | vmul | mmul | trans | venum | gload | gread | enc | cblook | hdist | corr | dech | decs
  deriving DecidableEq, Repr

/-- The class of a register field of a command word (R82). -/
inductive OperandClass where
  /-- A vector register: every field value is legal. -/
  | vector
  /-- A matrix register: 0 to 3. -/
  | matrix
  /-- A soft-sample register: 0 to 3. -/
  | soft
  /-- Class `0`: the field is unused and must be 0. -/
  | unused
  deriving DecidableEq, Repr

/-- A command (R84). Operands stand in the order of the assembler syntax, destination first (R87). -/
inductive Instr where
  /-- NOP (43_control.md R133). -/
  | nop
  /-- VMUL vd, va, mb (40_gf2_linear_algebra.md R101). -/
  | vmul (d a : VIdx) (b : MIdx)
  /-- MMUL md, ma, mb (R102). -/
  | mmul (d a b : MIdx)
  /-- TRANS md, ma (R103). -/
  | trans (d a : MIdx)
  /-- VENUM vd, size, index (41_code_definition.md R112). Every size and index the fields hold is
  a VENUM; one out of range makes it fault IMM_RANGE. -/
  | venum (d : VIdx) (size : BitVec 4) (index : BitVec 10)
  /-- GLOAD ma (R113). -/
  | gload (a : MIdx)
  /-- GREAD md (R114). -/
  | gread (d : MIdx)
  /-- ENC vd, va (R115). -/
  | enc (d a : VIdx)
  /-- CBLOOK vd, va (R116). -/
  | cblook (d a : VIdx)
  /-- HDIST va, vb (42_decoders.md R121). -/
  | hdist (a b : VIdx)
  /-- CORR sa, vb (R122). -/
  | corr (a : SIdx) (b : VIdx)
  /-- DECH vd, va (R123). -/
  | dech (d a : VIdx)
  /-- DECS vd, sa (R124). -/
  | decs (d : VIdx) (a : SIdx)
  deriving DecidableEq, Repr

end Sys2Proof
end

