-- ==== Sys2Proof/WellFormed.lean ====
section
/-! DEFINITION. WellFormed.lean: the command contract a term of `Instr` may break. Register numbers are in range by
their types (R82); what remains is VENUM's immediate (30_encoding.md R83). -/

namespace Sys2Proof

/-- VENUM's two immediate parts as R83 requires them: `1 <= size <= 10` and `index < 2^size`. -/
def immInRange (size : BitVec 4) (index : BitVec 10) : Bool :=
  decide (1 ≤ size.toNat) && decide (size.toNat ≤ maxDim) && decide (index.toNat < 2 ^ size.toNat)

/-- The instruction keeps the command contract of R83. An ill-formed VENUM still has a meaning: it faults IMM_RANGE. -/
def Instr.wellFormed : Instr → Bool
  | .nop => true
  | .vmul _ _ _ => true
  | .mmul _ _ _ => true
  | .trans _ _ => true
  | .venum _ size index => immInRange size index
  | .gload _ => true
  | .gread _ => true
  | .enc _ _ => true
  | .cblook _ _ => true
  | .hdist _ _ => true
  | .corr _ _ => true
  | .dech _ _ => true
  | .decs _ _ => true

end Sys2Proof
end

