-- ==== Sys2Proof/Decode.lean ====
section
/-! DEFINITION. Decode.lean: the command word of 30_encoding.md R81 to R85, read (`decode`, total on all 2^32 words, R86)
and written (`encode`), both from the one opcode map of R84. -/

namespace Sys2Proof

/-- Why a word is no instruction (R85). Performing such a word takes the fault of the same name. -/
inductive DecodeError where
  /-- The opcode is 0x0D to 0x3F. -/
  | illegalOpcode
  /-- An unused field is nonzero, an M or S field is above 3, or `imm` is nonzero outside VENUM. -/
  | reservedField
  deriving DecidableEq, Repr

/-- `op`, bits 31 to 26 (R81). -/
def opField (w : Word) : BitVec 6 := w.extractLsb' 26 6
/-- `d`, bits 25 to 22 (R81). -/
def dField (w : Word) : BitVec 4 := w.extractLsb' 22 4
/-- `a`, bits 21 to 18 (R81). -/
def aField (w : Word) : BitVec 4 := w.extractLsb' 18 4
/-- `b`, bits 17 to 14 (R81). -/
def bField (w : Word) : BitVec 4 := w.extractLsb' 14 4
/-- `imm`, bits 13 to 0 (R81). -/
def immField (w : Word) : BitVec 14 := w.extractLsb' 0 14

/-- The opcode numbers of R84. -/
def Opcode.number : Opcode → BitVec 6
  | .nop => 0x00#6
  | .vmul => 0x01#6
  | .mmul => 0x02#6
  | .trans => 0x03#6
  | .venum => 0x04#6
  | .gload => 0x05#6
  | .gread => 0x06#6
  | .enc => 0x07#6
  | .cblook => 0x08#6
  | .hdist => 0x09#6
  | .corr => 0x0A#6
  | .dech => 0x0B#6
  | .decs => 0x0C#6

/-- The opcode map of R84 read from the number; 0x0D to 0x3F are reserved (R85). -/
def Opcode.ofNumber (n : BitVec 6) : Option Opcode :=
  match n.toNat with
  | 0x00 => some .nop
  | 0x01 => some .vmul
  | 0x02 => some .mmul
  | 0x03 => some .trans
  | 0x04 => some .venum
  | 0x05 => some .gload
  | 0x06 => some .gread
  | 0x07 => some .enc
  | 0x08 => some .cblook
  | 0x09 => some .hdist
  | 0x0A => some .corr
  | 0x0B => some .dech
  | 0x0C => some .decs
  | _ => none

/-- The class of field `d` (R84). -/
def Opcode.dClass : Opcode → OperandClass
  | .vmul | .venum | .enc | .cblook | .dech | .decs => .vector
  | .mmul | .trans | .gread => .matrix
  | .nop | .gload | .hdist | .corr => .unused

/-- The class of field `a` (R84). -/
def Opcode.aClass : Opcode → OperandClass
  | .vmul | .enc | .cblook | .hdist | .dech => .vector
  | .mmul | .trans | .gload => .matrix
  | .corr | .decs => .soft
  | .nop | .venum | .gread => .unused

/-- The class of field `b` (R84). -/
def Opcode.bClass : Opcode → OperandClass
  | .hdist | .corr => .vector
  | .vmul | .mmul => .matrix
  | .nop | .trans | .venum | .gload | .gread | .enc | .cblook | .dech | .decs => .unused

/-- Only VENUM uses the immediate (R83). -/
def Opcode.usesImm : Opcode → Bool
  | .venum => true
  | .nop | .vmul | .mmul | .trans | .gload | .gread | .enc | .cblook | .hdist | .corr | .dech | .decs => false

/-- The legal values of a field of each class (R82). -/
def OperandClass.accepts : OperandClass → BitVec 4 → Bool
  | .vector, _ => true
  | .matrix, f => decide (f.toNat < 4)
  | .soft, f => decide (f.toNat < 4)
  | .unused, f => decide (f.toNat = 0)

/-- All fields of the word against the opcode's classes: the RESERVED_FIELD check of R85. -/
def fieldsLegal (op : Opcode) (w : Word) : Bool :=
  op.dClass.accepts (dField w) && op.aClass.accepts (aField w) && op.bClass.accepts (bField w)
    && (op.usesImm || decide ((immField w).toNat = 0))

/-- A vector register number read from its field. -/
def vIdx (f : BitVec 4) : VIdx := Fin.ofNat 16 f.toNat
/-- A matrix register number read from its field, which `fieldsLegal` has found to be 0 to 3. -/
def mIdx (f : BitVec 4) : MIdx := Fin.ofNat 4 f.toNat
/-- A soft-sample register number read from its field, which `fieldsLegal` has found to be 0 to 3. -/
def sIdx (f : BitVec 4) : SIdx := Fin.ofNat 4 f.toNat

/-- The instruction of an opcode and a word whose fields are legal: the operand lists of R87. -/
def Opcode.build (w : Word) : Opcode → Instr
  | .nop => .nop
  | .vmul => .vmul (vIdx (dField w)) (vIdx (aField w)) (mIdx (bField w))
  | .mmul => .mmul (mIdx (dField w)) (mIdx (aField w)) (mIdx (bField w))
  | .trans => .trans (mIdx (dField w)) (mIdx (aField w))
  | .venum => .venum (vIdx (dField w)) ((immField w).extractLsb' 10 4) ((immField w).extractLsb' 0 10)
  | .gload => .gload (mIdx (aField w))
  | .gread => .gread (mIdx (dField w))
  | .enc => .enc (vIdx (dField w)) (vIdx (aField w))
  | .cblook => .cblook (vIdx (dField w)) (vIdx (aField w))
  | .hdist => .hdist (vIdx (aField w)) (vIdx (bField w))
  | .corr => .corr (sIdx (aField w)) (vIdx (bField w))
  | .dech => .dech (vIdx (dField w)) (vIdx (aField w))
  | .decs => .decs (vIdx (dField w)) (sIdx (aField w))

/-- The decoder: every word is exactly one of an instruction, an ILLEGAL_OPCODE word or a RESERVED_FIELD word,
the opcode checked first (R85, 60_exceptions.md R153). -/
def decode (w : Word) : Except DecodeError Instr :=
  match Opcode.ofNumber (opField w) with
  | none => .error .illegalOpcode
  | some op => if fieldsLegal op w then .ok (op.build w) else .error .reservedField

/-- The encoding function of R81: `(op << 26) | (d << 22) | (a << 18) | (b << 14) | imm`. -/
def encodeFields (op : Opcode) (d a b : BitVec 4) (imm : BitVec 14) : Word :=
  op.number ++ d ++ a ++ b ++ imm

/-- A register number as a four-bit field. -/
def regField {n : Nat} (i : Fin n) : BitVec 4 := BitVec.ofNat 4 i.val

/-- The word of an instruction (R81, R84). -/
def encode : Instr → Word
  | .nop => encodeFields .nop 0 0 0 0
  | .vmul d a b => encodeFields .vmul (regField d) (regField a) (regField b) 0
  | .mmul d a b => encodeFields .mmul (regField d) (regField a) (regField b) 0
  | .trans d a => encodeFields .trans (regField d) (regField a) 0 0
  | .venum d size index => encodeFields .venum (regField d) 0 0 (size ++ index)
  | .gload a => encodeFields .gload 0 (regField a) 0 0
  | .gread d => encodeFields .gread (regField d) 0 0 0
  | .enc d a => encodeFields .enc (regField d) (regField a) 0 0
  | .cblook d a => encodeFields .cblook (regField d) (regField a) 0 0
  | .hdist a b => encodeFields .hdist 0 (regField a) (regField b) 0
  | .corr a b => encodeFields .corr 0 (regField a) (regField b) 0
  | .dech d a => encodeFields .dech (regField d) (regField a) 0 0
  | .decs d a => encodeFields .decs (regField d) (regField a) 0 0

/-- The opcode of an instruction (R84). -/
def Instr.opcode : Instr → Opcode
  | .nop => .nop
  | .vmul _ _ _ => .vmul
  | .mmul _ _ _ => .mmul
  | .trans _ _ => .trans
  | .venum _ _ _ => .venum
  | .gload _ => .gload
  | .gread _ => .gread
  | .enc _ _ => .enc
  | .cblook _ _ => .cblook
  | .hdist _ _ => .hdist
  | .corr _ _ => .corr
  | .dech _ _ => .dech
  | .decs _ _ => .decs

/-- The command word of an opcode-table row's bits. A command is always one 32-bit word written whole (R57, R86), so
its bits are the table's bits, and those the table does not give are 0. -/
def tableWord (nbits w : Nat) : Word := BitVec.ofNat 32 (w % 2 ^ nbits)

/-- The instruction the decoder reads from a row's bits, none where it refuses. -/
def decodeTableWord (nbits w : Nat) : Option Instr := (decode (tableWord nbits w)).toOption

end Sys2Proof
end

