-- ==== Sys2Proof/Machine/Gf2.lean ====
section
/-! DEFINITION. Machine/Gf2.lean: the shared pure functions of 00_scope.md R11, over vectors and matrices given by their
elements (R8, R9), and the searches the decoder rules write as loops (42_decoders.md R123, R124). -/

namespace Sys2Proof.Machine

/-- A vector by its elements: element `j` at `j` (R8). Its length is passed beside it. -/
abbrev Bits := Nat → Bool

/-- A matrix by its elements: `A r c` is `A[r][c]` (R9). Its shape is passed beside it. -/
abbrev BitMatrix := Nat → Nat → Bool

/-- The sum of `f 0, ..., f (n-1)` over GF(2): their exclusive-or, 0 for an empty sum (R7). -/
def xorSum : Nat → Bits → Bool
  | 0, _ => false
  | n + 1, f => xorSum n f ^^ f n

/-- Element `i` of the vector-matrix product of `v` with a matrix of height `h` (R11 `vm`). -/
def vm (h : Nat) (v : Bits) (A : BitMatrix) : Bits := fun i => xorSum h fun j => v j && A j i

/-- Element `[r][c]` of the product of an `_ x k` matrix with a `k x _` matrix (R11 `mm`). -/
def mm (k : Nat) (A B : BitMatrix) : BitMatrix := fun r c => xorSum k fun j => A r j && B j c

/-- The transpose (R11 `tr`). -/
def tr (A : BitMatrix) : BitMatrix := fun r c => A c r

/-- How many of `f 0, ..., f (n-1)` are true. -/
def countTrue : Nat → Bits → Nat
  | 0, _ => 0
  | n + 1, f => countTrue n f + (f n).toNat

/-- Hamming distance of two vectors of length `n`: the count of differing positions (R11 `hd`). -/
def hd (n : Nat) (a b : Bits) : Nat := countTrue n fun i => a i != b i

/-- The number of 1 bits of a packed vector (R6 `popcount`). -/
def popcount (w : Packed) : Nat := countTrue 10 w.getLsbD

/-- The sum of `f 0, ..., f (n-1)`, an exact integer. -/
def intSum : Nat → (Nat → Int) → Int
  | 0, _ => 0
  | n + 1, f => intSum n f + f n

/-- Correlation of `n` signed samples with a BPSK-mapped vector, an exact integer (R11 `corr`). -/
def corr (n : Nat) (s : Nat → Int) (c : Bits) : Int := intSum n fun i => if c i then s i else -s i

/-- `enum(n, x)`: element 0 is the most significant of the `n` bits of `x` (R11, 41_code_definition.md R111). -/
def enumVec (n x : Nat) : Bits := fun j => x.testBit (n - 1 - j)

/-- `src(e)`, the source vector of codebook entry `e` (R11). -/
def srcVec (e : Nat) : Bits := enumVec sourceLen e

/-- The packed form of the first `n` elements of `f`: element `j` at bit `j`, every other bit 0 (R8, R10). -/
def pack (n : Nat) (f : Bits) : Packed :=
  match n with
  | 0 => 0#10
  | n + 1 => pack n f ||| (BitVec.setWidth 10 (BitVec.ofBool (f n)) <<< n)

/-- The least of `f 0, ..., f n`. -/
def minOver : Nat → (Nat → Nat) → Nat
  | 0, f => f 0
  | n + 1, f => min (minOver n f) (f (n + 1))

/-- The search of R123 and R124 over entries 0 to `n`: the entry is replaced only by one whose score is strictly
better, so the first best entry is kept. Answers the entry and its score. -/
def firstBest {α : Type} (better : α → α → Bool) (score : Nat → α) : Nat → Nat × α
  | 0 => (0, score 0)
  | n + 1 =>
    match firstBest better score n with
    | (e, s) => if better (score (n + 1)) s then (n + 1, score (n + 1)) else (e, s)

/-- The least `e` in `e, e+1, ..., e+n-1` with `p e`, if any. -/
def findFrom (p : Nat → Bool) : Nat → Nat → Option Nat
  | _, 0 => none
  | e, n + 1 => if p e then some e else findFrom p (e + 1) n

end Sys2Proof.Machine
end

