-- ==== Sys2Proof/Machine/Codebook.lean ====
section
/-! DEFINITION. Machine/Codebook.lean: the codebook of a generator, its injectivity check and its minimum distance, as
GLOAD computes them (41_code_definition.md R113), shared by GLOAD, by reset (70_reset_and_hazards.md R182) and by the
check that a configuration is legal. -/

namespace Sys2Proof.Machine

/-- One codebook entry: a codeword and its source vector, each packed (10_state.md R33). -/
structure CbEntry where
  /-- `CB[e].cw`. -/
  cw : Packed
  /-- `CB[e].src`. -/
  src : BitVec 6
  deriving DecidableEq, Repr

/-- The codebook's 64 entries (R33). -/
abbrev Codebook := Vector CbEntry 64

/-- A generator by its elements (R32). -/
def genBits (G : GenRows) : BitMatrix := fun r c => (G[r]?.getD 0#10).getLsbD c

/-- `vm(src(e), A)` packed: the codeword of entry `e` (R113). -/
def codewordOf (A : BitMatrix) (e : Nat) : Packed := pack codeLen (vm sourceLen (srcVec e) A)

/-- `src(e)` packed (R33). -/
def packedSrc (e : Nat) : BitVec 6 := BitVec.setWidth 6 (pack sourceLen (srcVec e))

/-- The codebook of a generator: entry `e` holds `(vm(src(e), A), src(e))` (R113). -/
def buildCodebook (A : BitMatrix) : Codebook :=
  Vector.ofFn fun e => { cw := codewordOf A e.val, src := packedSrc e.val }

/-- `CB[e].cw`; 0 at no entry. -/
def cwAt (cb : Codebook) (e : Nat) : Packed := (cb[e]?.map CbEntry.cw).getD 0#10

/-- `CB[e].src`; 0 at no entry. -/
def srcAt (cb : Codebook) (e : Nat) : BitVec 6 := (cb[e]?.map CbEntry.src).getD 0#6

/-- The 64 codewords are distinct: no `e < f` with `cw[e] = cw[f]` (R113). -/
def injective (cb : Codebook) : Bool :=
  decide (∀ f < codebookSize, ∀ e < f, cwAt cb e ≠ cwAt cb f)

/-- Hamming distance of two codewords. -/
def cwDist (a b : Packed) : Nat := hd codeLen a.getLsbD b.getLsbD

/-- The least `hd(cw[e], cw[f])` over `e < f` (R113; `f + 1` runs over 1 to 63). -/
def minDistance (cb : Codebook) : Nat :=
  minOver 62 fun f => minOver f fun e => cwDist (cwAt cb e) (cwAt cb (f + 1))

/-- The configurations the spec allows: `2 <= SW <= 27` (10_state.md R31), and a `G_RESET` that, where it is a matrix,
is injective (70_reset_and_hazards.md R182). -/
def configLegal (c : Config) : Bool :=
  decide (2 ≤ c.sw) && decide (c.sw ≤ 27) &&
    match c.gReset with
    | none => true
    | some G => injective (buildCodebook (genBits G))

end Sys2Proof.Machine
end

