-- ==== Sys2Proof/Machine/State.lean ====
section
/-! DEFINITION. Machine/State.lean: everything the spec gives the machine (10_state.md R24 to R39, R42), as plain data, with
the two open parameters and the host's side of the bus beside it. -/

namespace Sys2Proof.Machine

/-- A vector register (10_state.md R27). -/
structure VecReg where
  /-- The length, 0 to 15; legal in 1 to 10 (R29). -/
  len : BitVec 4
  /-- The elements, element `j` at bit `j`. -/
  data : Packed
  deriving DecidableEq, Repr

/-- A matrix register (10_state.md R28). -/
structure MatReg where
  /-- `row[r]`, element `[r][c]` at bit `c`. -/
  rows : Vector Packed 10
  height : BitVec 4
  width : BitVec 4
  deriving DecidableEq, Repr

/-- A soft-sample register (10_state.md R30). -/
structure SoftReg where
  /-- `sample[k]`: the SW stored bits, in the low bits of a word whose other bits are 0. -/
  samples : Vector Word 10
  len : BitVec 4
  deriving DecidableEq, Repr

/-- One host access of the register window: `size` bytes at byte offset `off` (20_memory.md R53 to R55). Every width
and offset is an access; only `size = 4` at a multiple of 4 below 0x1000 is accepted. -/
inductive Access where
  | read (off size : Nat)
  | write (off size : Nat) (w : Word)
  deriving DecidableEq, Repr

/-- What the bus answers the host (20_memory.md R53 to R55): the data of a read, and whether the access ended in a bus error. -/
inductive BusReply where
  | read (data : Word) (error : Bool)
  | write (error : Bool)
  deriving DecidableEq, Repr

/-- One turn of the interleaving of 20_memory.md R61. -/
inductive Turn where
  /-- The host performs its next access. -/
  | host (a : Access)
  /-- The sequencer performs the pending command, if there is one (43_control.md R132). -/
  | sequencer
  /-- The platform asserts the reset input; `cut` is the host access in progress, if any, which ends with no
  effect on the block (70_reset_and_hazards.md R181). -/
  | hardReset (cut : Option Access)
  deriving DecidableEq, Repr

/-- The model's own side of the bus, no state of the block (log entries 1, 5 and 6). -/
structure HostSide where
  /-- The turns to come, first first. -/
  agenda : List Turn
  /-- The reply to the host's last access, none before the first and after a hard reset. -/
  reply : Option BusReply
  /-- A CMD write was accepted and no later STATUS read has returned BUSY = 0 (43_control.md R136,
  70_reset_and_hazards.md R191). -/
  awaiting : Bool
  deriving DecidableEq, Repr

/-- The state. BUSY is `pend` holding a command, so it has no field (10_state.md R39); ID is a constant and CTRL stores
nothing (R24, R26). -/
structure State where
  /-- SW and G_RESET, which no step changes (10_state.md R40). -/
  config : Config
  /-- The model's own side of the bus. -/
  host : HostSide
  /-- `V[0]` to `V[15]` (R27). -/
  v : Vector VecReg 16
  /-- `M[0]` to `M[3]` (R28). -/
  m : Vector MatReg 4
  /-- `S[0]` to `S[3]` (R30). -/
  soft : Vector SoftReg 4
  /-- `G` (R32). -/
  g : GenRows
  /-- `CB` (R33). -/
  cb : Codebook
  /-- `DMIN` (R34). -/
  dmin : BitVec 4
  /-- `RES` (R35). -/
  res : Word
  /-- `IDX` (R36). -/
  idx : BitVec 6
  /-- `ERRINFO` (R37). -/
  errInfo : Word
  /-- `CMDLAST` (R38). -/
  cmdLast : Word
  /-- `PEND` (R39); BUSY = 1 exactly when it holds a word. -/
  pend : Option Word
  /-- `STATUS.ERR` (R25). -/
  err : Bool
  /-- `STATUS.OVR` (R25). -/
  ovr : Bool
  /-- `STATUS.CFG` (R25). -/
  cfg : Bool
  /-- `STATUS.ERRCODE` (R25). -/
  errCode : BitVec 4
  deriving DecidableEq, Repr

/-- The faults of 60_exceptions.md R151. Each is recorded in STATUS and ERRINFO and the machine goes on. -/
inductive FaultCode where
  | illegalOpcode
  | reservedField
  | notConfigured
  | lenIllegal
  | dimMismatch
  | immRange
  | notInjective
  | notCodeword
  deriving DecidableEq, Repr

/-- Faults that stop the machine: there is none. Every fault of R151 is recorded in STATUS and the machine goes on (R152), and
the sequencer's step "cannot hang, be refused or be left half-done" (43_control.md R132). -/
inductive Fault
  deriving DecidableEq, Repr

/-- What the model gives no meaning. -/
inductive Refusal where
  /-- Raised by an arm of `exec` for an instruction that has no meaning yet, under its mnemonic; safe: a run stops. No
  arm raises it. -/
  | notModelled (mnemonic : String)
  /-- Raised by `step` when the configuration is one the spec does not allow: SW outside 2 to 27, or a G_RESET that is not
  injective, for which "a model refuses such a configuration rather than giving it a meaning"
  (70_reset_and_hazards.md R182); safe: a run stops. -/
  | illegalConfiguration
  deriving DecidableEq, Repr

/-- An operand vector register at reset (R42). -/
def VecReg.zero : VecReg := { len := 0#4, data := 0#10 }

/-- A matrix register at reset (R42). -/
def MatReg.zero : MatReg := { rows := Vector.replicate 10 0#10, height := 0#4, width := 0#4 }

/-- A soft-sample register at reset (R42). -/
def SoftReg.zero : SoftReg := { samples := Vector.replicate 10 0#32, len := 0#4 }

/-- The reset state of a block of configuration `c` (10_state.md R42, 70_reset_and_hazards.md R182). The host's side,
which is no state of the block, starts empty. -/
def State.resetWith (c : Config) : State where
  config := c
  host := { agenda := [], reply := none, awaiting := false }
  v := Vector.replicate 16 VecReg.zero
  m := Vector.replicate 4 MatReg.zero
  soft := Vector.replicate 4 SoftReg.zero
  g := c.gReset.getD (Vector.replicate 6 0#10)
  cb :=
    match c.gReset with
    | none => Vector.replicate 64 { cw := 0#10, src := 0#6 }
    | some G => buildCodebook (genBits G)
  dmin :=
    match c.gReset with
    | none => 0#4
    | some G => BitVec.ofNat 4 (minDistance (buildCodebook (genBits G)))
  res := 0#32
  idx := 0#6
  errInfo := 0#32
  cmdLast := 0#32
  pend := none
  err := false
  ovr := false
  cfg := c.gReset.isSome
  errCode := 0#4

/-- The machine right after reset, with the spec's reference values of the open parameters (R5, R42). -/
def State.reset : State := State.resetWith Config.reference

end Sys2Proof.Machine
end

