-- ==== Sys2Proof/Machine/Flags.lean ====
section
/-! DEFINITION. Machine/Flags.lean: the STATUS register (10_state.md R25) and the fault codes it reports
(60_exceptions.md R151). -/

namespace Sys2Proof.Machine

/-- The ERRCODE of each fault (R151). -/
def FaultCode.number : FaultCode → BitVec 4
  | .illegalOpcode => 1#4
  | .reservedField => 2#4
  | .notConfigured => 3#4
  | .lenIllegal => 4#4
  | .dimMismatch => 5#4
  | .immRange => 6#4
  | .notInjective => 7#4
  | .notCodeword => 8#4

/-- The fault of a word that is no instruction (30_encoding.md R85). -/
def faultOfDecode : DecodeError → FaultCode
  | .illegalOpcode => .illegalOpcode
  | .reservedField => .reservedField

/-- STATUS.BUSY: a command is pending (10_state.md R25, R39). -/
def State.busy (s : State) : Bool := s.pend.isSome

/-- The image of STATUS: BUSY at bit 0, ERR at 1, OVR at 2, CFG at 3, ERRCODE at 11 to 8, every other bit 0 (R25). -/
def State.statusImage (s : State) : Word :=
  0#20 ++ s.errCode ++ 0#4 ++ BitVec.ofBool s.cfg ++ BitVec.ofBool s.ovr ++ BitVec.ofBool s.err ++ BitVec.ofBool s.busy

end Sys2Proof.Machine
end

