-- ==== Sys2Proof/Machine/Operands.lean ====
section
/-! DEFINITION. Machine/Operands.lean: how a command reads its operand registers (00_scope.md R10) and which lengths are
legal (10_state.md R29). Every operand is a register (30_encoding.md R82). -/

namespace Sys2Proof.Machine

/-- A length, height or width is legal in 1 to MAXDIM (R29). -/
def legalLen (n : BitVec 4) : Bool := decide (1 ≤ n.toNat) && decide (n.toNat ≤ maxDim)

/-- `V[i]` (R10). -/
def State.readV (s : State) (i : VIdx) : VecReg := s.v[i]

/-- `M[i]` (R10). -/
def State.readM (s : State) (i : MIdx) : MatReg := s.m[i]

/-- `S[i]` (R10). -/
def State.readS (s : State) (i : SIdx) : SoftReg := s.soft[i]

/-- `vec(V[i])`: element `j` is `data[j]` (R10). -/
def VecReg.bits (r : VecReg) : Bits := r.data.getLsbD

/-- `mat(M[i])`: element `[r][c]` is bit `c` of row `r` (R10). Commands ask it only inside the register's shape (R28). -/
def MatReg.bits (r : MatReg) : BitMatrix := fun i j => (r.rows[i]?.getD 0#10).getLsbD j

/-- A matrix's height and width are both legal; they are checked together (60_exceptions.md R153). -/
def MatReg.legal (r : MatReg) : Bool := legalLen r.height && legalLen r.width

/-- The signed value of a stored sample: its SW bits in two's complement (10_state.md R31). -/
def sampleValue (c : Config) (w : Word) : Int := (w.setWidth c.sw).toInt

/-- `smp(S[i], k)` (R10). -/
def SoftReg.value (c : Config) (r : SoftReg) (k : Nat) : Int := sampleValue c (r.samples[k]?.getD 0#32)

/-- A matrix register holding the `h x w` matrix `A`, every bit outside it 0 (10_state.md R28). -/
def MatReg.ofBits (h w : BitVec 4) (A : BitMatrix) : MatReg where
  rows := Vector.ofFn fun r => if r.val < h.toNat then pack w.toNat (A r.val) else 0#10
  height := h
  width := w

end Sys2Proof.Machine
end

