-- ==== Sys2Proof/Machine/Ops.lean ====
section
/-! DEFINITION. Machine/Ops.lean: the shared operations on the state: register writes, taking a fault and ending the error
state, offering and retiring a command, reset. -/

namespace Sys2Proof.Machine

/-- The state with another host side, the block as it was. -/
def State.withHost (s : State) (h : HostSide) : State := { s with host := h }

/-- `V[d] <- (n, bits)`, bits at and above `n` 0 (00_scope.md R10, 10_state.md R27). -/
def State.writeV (s : State) (d : VIdx) (n : BitVec 4) (f : Bits) : State :=
  { s with v := s.v.set d { len := n, data := pack n.toNat f } }

/-- `M[d] <- (h, w, rows)`: all ten rows and dims, every bit outside the result 0 (R10, 10_state.md R28). -/
def State.writeM (s : State) (d : MIdx) (h w : BitVec 4) (A : BitMatrix) : State :=
  { s with m := s.m.set d (MatReg.ofBits h w A) }

/-- `RES <- w` (10_state.md R35). -/
def State.writeRes (s : State) (w : Word) : State := { s with res := w }

/-- `IDX <- e` (10_state.md R36). -/
def State.writeIdx (s : State) (e : Nat) : State := { s with idx := BitVec.ofNat 6 e }

/-- What a successful GLOAD of the matrix `A` writes: G, CB, DMIN and CFG (41_code_definition.md R113). -/
def State.installCode (s : State) (A : BitMatrix) : State :=
  { s with
    g := Vector.ofFn fun r => pack codeLen (A r.val)
    cb := buildCodebook A
    dmin := BitVec.ofNat 4 (minDistance (buildCodebook A))
    cfg := true }

/-- Taking a fault (60_exceptions.md R152): ERR, ERRCODE, ERRINFO (the command word, which is PEND) and BUSY are
written and nothing else changes. With no command pending, which no sequencer step meets, there is no word to record. -/
def State.takeFault (s : State) (c : FaultCode) : State :=
  { s with err := true, errCode := c.number, errInfo := s.pend.getD s.errInfo, pend := none }

/-- The end of a command that faults: the machine goes on from the recorded fault (R152). -/
def raiseFault (c : FaultCode) (s : State) : Host.Outcome State Fault Refusal := .next (s.takeFault c)

/-- CTRL.CLRERR, the way back from a fault (10_state.md R26, 60_exceptions.md R155): nothing else changes. -/
def State.clearError (s : State) : State :=
  { s with err := false, ovr := false, errCode := 0#4, errInfo := 0#32 }

/-- The effect of a hard or soft reset (70_reset_and_hazards.md R181, R182): every piece of the block's state takes its
reset value, a pending command is discarded, the configuration and the host's side stay. -/
def State.resetBlock (s : State) : State := (State.resetWith s.config).withHost s.host

/-- Accepting a command: `PEND <- w; CMDLAST <- w; BUSY <- 1` (20_memory.md R56). -/
def State.acceptCommand (s : State) (w : Word) : State := { s with pend := some w, cmdLast := w }

/-- Offering a command (20_memory.md R56): dropped with OVR while BUSY, dropped while ERR, else accepted. -/
def State.offerCommand (s : State) (w : Word) : State :=
  if s.busy then { s with ovr := true }
  else if s.err then s
  else s.acceptCommand w

/-- The end of a sequencer step: `BUSY <- 0; PEND <- none` (43_control.md R132). -/
def State.retire (s : State) : State := { s with pend := none }

end Sys2Proof.Machine
end

