-- ==== Sys2Proof/Machine/CodeDef.lean ====
section
/-! DEFINITION. Machine/CodeDef.lean: the code-definition commands of 41_code_definition.md. Each meaning reads its operands
in the state before the step (43_control.md R131) and checks in the order of 60_exceptions.md R153. -/

namespace Sys2Proof.Machine

/-- VENUM (R112): size is checked, then index. -/
def execVenum (d : VIdx) (size : BitVec 4) (index : BitVec 10) (s : State) : Host.Outcome State Fault Refusal :=
  if !legalLen size then raiseFault .immRange s
  else if 2 ^ size.toNat ≤ index.toNat then raiseFault .immRange s
  else .next (s.writeV d size (enumVec size.toNat index.toNat))

/-- GLOAD (R113): a faulting GLOAD changes none of G, CB, DMIN and CFG. -/
def execGload (a : MIdx) (s : State) : Host.Outcome State Fault Refusal :=
  let A := s.readM a
  if !A.legal then raiseFault .lenIllegal s
  else if A.height.toNat ≠ sourceLen ∨ A.width.toNat ≠ codeLen then raiseFault .dimMismatch s
  else if !injective (buildCodebook A.bits) then raiseFault .notInjective s
  else .next (s.installCode A.bits)

/-- GREAD (R114). -/
def execGread (d : MIdx) (s : State) : Host.Outcome State Fault Refusal :=
  if !s.cfg then raiseFault .notConfigured s
  else .next (s.writeM d 6#4 10#4 (genBits s.g))

/-- ENC (R115). -/
def execEnc (d a : VIdx) (s : State) : Host.Outcome State Fault Refusal :=
  let x := s.readV a
  if !s.cfg then raiseFault .notConfigured s
  else if !legalLen x.len then raiseFault .lenIllegal s
  else if x.len.toNat ≠ sourceLen then raiseFault .dimMismatch s
  else .next (s.writeV d 10#4 (vm sourceLen x.bits (genBits s.g)))

/-- CBLOOK (R116): the entry whose codeword is the vector, which is unique while CFG = 1 (R117). -/
def execCblook (d a : VIdx) (s : State) : Host.Outcome State Fault Refusal :=
  let x := s.readV a
  if !s.cfg then raiseFault .notConfigured s
  else if !legalLen x.len then raiseFault .lenIllegal s
  else if x.len.toNat ≠ codeLen then raiseFault .dimMismatch s
  else
    match findFrom (fun e => cwAt s.cb e == x.data) 0 codebookSize with
    | none => raiseFault .notCodeword s
    | some e => .next ((s.writeV d 6#4 (srcAt s.cb e).getLsbD).writeIdx e)

end Sys2Proof.Machine
end

