-- ==== Sys2Proof/Machine/Control.lean ====
section
/-! DEFINITION. Machine/Control.lean: the control family of 43_control.md. -/

namespace Sys2Proof.Machine

/-- NOP: no effect (R133). The sequencer step around it still clears BUSY (R132). -/
def execNop (s : State) : Host.Outcome State Fault Refusal := .next s

end Sys2Proof.Machine
end

