-- ==== Sys2Proof/Machine/Decoders.lean ====
section
/-! DEFINITION. Machine/Decoders.lean: the distance, correlation and decoder commands of 42_decoders.md. Each meaning reads its
operands in the state before the step (43_control.md R131) and checks in the order of 60_exceptions.md R153. -/

namespace Sys2Proof.Machine

/-- HDIST (R121): `RES <- zext_32(popcount(V[a].data XOR V[b].data))`. -/
def execHdist (a b : VIdx) (s : State) : Host.Outcome State Fault Refusal :=
  let x := s.readV a
  let y := s.readV b
  if !legalLen x.len then raiseFault .lenIllegal s
  else if !legalLen y.len then raiseFault .lenIllegal s
  else if x.len ≠ y.len then raiseFault .dimMismatch s
  else .next (s.writeRes (BitVec.ofNat 32 (popcount (x.data ^^^ y.data))))

/-- CORR (R122): the exact sum, as a 32-bit two's-complement word. -/
def execCorr (a : SIdx) (b : VIdx) (s : State) : Host.Outcome State Fault Refusal :=
  let x := s.readS a
  let y := s.readV b
  if !legalLen x.len then raiseFault .lenIllegal s
  else if !legalLen y.len then raiseFault .lenIllegal s
  else if x.len ≠ y.len then raiseFault .dimMismatch s
  else .next (s.writeRes (BitVec.ofInt 32 (corr x.len.toNat (x.value s.config) y.bits)))

/-- The hard decision: the first entry of least Hamming distance to `r`, and that distance (R123). -/
def hardDecision (cb : Codebook) (r : Bits) : Nat × Nat :=
  firstBest (fun x y : Nat => decide (x < y)) (fun e => hd codeLen (cwAt cb e).getLsbD r) 63

/-- The soft decision: the first entry of greatest correlation with the samples, and that score (R124). -/
def softDecision (cb : Codebook) (x : Nat → Int) : Nat × Int :=
  firstBest (fun x y : Int => decide (x > y)) (fun e => corr codeLen x (cwAt cb e).getLsbD) 63

/-- DECH (R123): `V[d] <- (10, CB[best].cw); RES <- zext_32(bestd); IDX <- best`. -/
def execDech (d a : VIdx) (s : State) : Host.Outcome State Fault Refusal :=
  let x := s.readV a
  if !s.cfg then raiseFault .notConfigured s
  else if !legalLen x.len then raiseFault .lenIllegal s
  else if x.len.toNat ≠ codeLen then raiseFault .dimMismatch s
  else
    match hardDecision s.cb x.bits with
    | (best, bestd) =>
      .next (((s.writeV d 10#4 (cwAt s.cb best).getLsbD).writeRes (BitVec.ofNat 32 bestd)).writeIdx best)

/-- DECS (R124): `V[d] <- (10, CB[best].cw); RES <- bests; IDX <- best`. -/
def execDecs (d : VIdx) (a : SIdx) (s : State) : Host.Outcome State Fault Refusal :=
  let x := s.readS a
  if !s.cfg then raiseFault .notConfigured s
  else if !legalLen x.len then raiseFault .lenIllegal s
  else if x.len.toNat ≠ codeLen then raiseFault .dimMismatch s
  else
    match softDecision s.cb (x.value s.config) with
    | (best, bests) =>
      .next (((s.writeV d 10#4 (cwAt s.cb best).getLsbD).writeRes (BitVec.ofInt 32 bests)).writeIdx best)

end Sys2Proof.Machine
end

