-- ==== Sys2Proof/Machine/Linear.lean ====
section
/-! DEFINITION. Machine/Linear.lean: the GF(2) linear-algebra commands of 40_gf2_linear_algebra.md. Each meaning reads its
operands in the state before the step (43_control.md R131) and checks in the order of 60_exceptions.md R153. -/

namespace Sys2Proof.Machine

/-- VMUL (R101). -/
def execVmul (d a : VIdx) (b : MIdx) (s : State) : Host.Outcome State Fault Refusal :=
  let x := s.readV a
  let A := s.readM b
  if !legalLen x.len then raiseFault .lenIllegal s
  else if !A.legal then raiseFault .lenIllegal s
  else if x.len ≠ A.height then raiseFault .dimMismatch s
  else .next (s.writeV d A.width (vm A.height.toNat x.bits A.bits))

/-- MMUL (R102). -/
def execMmul (d a b : MIdx) (s : State) : Host.Outcome State Fault Refusal :=
  let A := s.readM a
  let B := s.readM b
  if !A.legal then raiseFault .lenIllegal s
  else if !B.legal then raiseFault .lenIllegal s
  else if A.width ≠ B.height then raiseFault .dimMismatch s
  else .next (s.writeM d A.height B.width (mm A.width.toNat A.bits B.bits))

/-- TRANS (R103): the dimensions are swapped. -/
def execTrans (d a : MIdx) (s : State) : Host.Outcome State Fault Refusal :=
  let A := s.readM a
  if !A.legal then raiseFault .lenIllegal s
  else .next (s.writeM d A.width A.height (tr A.bits))

end Sys2Proof.Machine
end

