-- ==== Sys2Proof/Machine/Dispatch.lean ====
section
/-! DEFINITION. Machine/Dispatch.lean: one arm per command (30_encoding.md R84). -/

namespace Sys2Proof.Machine

/-- What a command does when the sequencer performs it (43_control.md R132 `perform`). -/
def exec (i : Instr) (s : State) : Host.Outcome State Fault Refusal :=
  match i with
  | .nop => Sys2Proof.Machine.execNop s
  | .vmul d a b => Sys2Proof.Machine.execVmul d a b s
  | .mmul d a b => Sys2Proof.Machine.execMmul d a b s
  | .trans d a => Sys2Proof.Machine.execTrans d a s
  | .venum d size index => Sys2Proof.Machine.execVenum d size index s
  | .gload a => Sys2Proof.Machine.execGload a s
  | .gread d => Sys2Proof.Machine.execGread d s
  | .enc d a => Sys2Proof.Machine.execEnc d a s
  | .cblook d a => Sys2Proof.Machine.execCblook d a s
  | .hdist a b => Sys2Proof.Machine.execHdist a b s
  | .corr a b => Sys2Proof.Machine.execCorr a b s
  | .dech d a => Sys2Proof.Machine.execDech d a s
  | .decs d a => Sys2Proof.Machine.execDecs d a s

end Sys2Proof.Machine
end

