-- ==== Sys2Proof/Machine/Window.lean ====
section
/-! DEFINITION. Machine/Window.lean: the register window (20_memory.md R51 to R60) and the host's access of it. The window is a
view: every register has its one home in State. -/

namespace Sys2Proof.Machine

/-- The registers of the window (R52). -/
inductive WinReg where
  | id | cmd | status | ctrl | res | idx | dmin | errInfo
  | vec (i : VIdx)
  | matRow (m : MIdx) (r : Fin 10)
  | matDims (m : MIdx)
  | sample (s : SIdx) (k : Fin 10)
  | softLen (s : SIdx)
  | genRow (r : Fin 6)
  | cbEntry (e : Fin 64)
  | reserved
  deriving DecidableEq, Repr

/-- The eight control registers at 0x000 to 0x01C, by word number (R52). -/
def controlReg : Nat → WinReg
  | 0 => .id
  | 1 => .cmd
  | 2 => .status
  | 3 => .ctrl
  | 4 => .res
  | 5 => .idx
  | 6 => .dmin
  | 7 => .errInfo
  | _ => .reserved

/-- The register at byte offset `off`, a multiple of 4 below 0x1000 (R52). -/
def regAt (off : Nat) : WinReg :=
  if off < 0x040 then controlReg (off / 4)
  else if off < 0x080 then .vec (Fin.ofNat 16 ((off - 0x040) / 4))
  else if off < 0x100 then .reserved
  else if off < 0x200 then
    let m := Fin.ofNat 4 ((off - 0x100) / 0x40)
    let k := (off - 0x100) % 0x40 / 4
    if k < 10 then .matRow m (Fin.ofNat 10 k) else if k = 10 then .matDims m else .reserved
  else if off < 0x300 then
    let s := Fin.ofNat 4 ((off - 0x200) / 0x40)
    let k := (off - 0x200) % 0x40 / 4
    if k < 10 then .sample s (Fin.ofNat 10 k) else if k = 10 then .softLen s else .reserved
  else if off < 0x318 then .genRow (Fin.ofNat 6 ((off - 0x300) / 4))
  else if off < 0x400 then .reserved
  else if off < 0x500 then .cbEntry (Fin.ofNat 64 ((off - 0x400) / 4))
  else .reserved

/-- The offset of a register (R52); none for a reserved place. -/
def WinReg.offset : WinReg → Option Nat
  | .id => some 0x000
  | .cmd => some 0x004
  | .status => some 0x008
  | .ctrl => some 0x00C
  | .res => some 0x010
  | .idx => some 0x014
  | .dmin => some 0x018
  | .errInfo => some 0x01C
  | .vec i => some (0x040 + 4 * i.val)
  | .matRow m r => some (0x100 + 0x40 * m.val + 4 * r.val)
  | .matDims m => some (0x100 + 0x40 * m.val + 0x28)
  | .sample s k => some (0x200 + 0x40 * s.val + 4 * k.val)
  | .softLen s => some (0x200 + 0x40 * s.val + 0x28)
  | .genRow r => some (0x300 + 4 * r.val)
  | .cbEntry e => some (0x400 + 4 * e.val)
  | .reserved => none

/-- The constant of ID (10_state.md R24). -/
def idConstant : Word := 0x4C430A06#32

/-- The image of a vector register: data at 9 to 0, len at 19 to 16 (10_state.md R27). -/
def VecReg.image (r : VecReg) : Word := 0#12 ++ r.len ++ 0#6 ++ r.data

/-- The image of `dims`: height at 3 to 0, width at 11 to 8 (10_state.md R28). -/
def MatReg.dimsImage (r : MatReg) : Word := 0#20 ++ r.width ++ 0#4 ++ r.height

/-- The image of a stored sample: `sext_32` of its SW bits (10_state.md R30). -/
def sampleImage (c : Config) (w : Word) : Word := (w.setWidth c.sw).signExtend 32

/-- The image of a codebook entry: cw at 9 to 0, src at 21 to 16 (10_state.md R33). -/
def CbEntry.image (e : CbEntry) : Word := 0#10 ++ e.src ++ 0#6 ++ e.cw

/-- The 32-bit image of a register (R53 and each register's rule in 10_state.md). CTRL and reserved places read 0. -/
def State.image (s : State) : WinReg → Word
  | .id => idConstant
  | .cmd => s.cmdLast
  | .status => s.statusImage
  | .ctrl => 0#32
  | .res => s.res
  | .idx => s.idx.setWidth 32
  | .dmin => s.dmin.setWidth 32
  | .errInfo => s.errInfo
  | .vec i => s.v[i].image
  | .matRow m r => s.m[m].rows[r].setWidth 32
  | .matDims m => s.m[m].dimsImage
  | .sample i k => sampleImage s.config s.soft[i].samples[k]
  | .softLen i => s.soft[i].len.setWidth 32
  | .genRow r => s.g[r].setWidth 32
  | .cbEntry e => s.cb[e].image
  | .reserved => 0#32

/-- A host write of `w` to a vector register: `len <- w[19:16]`, `data <- w[9:0]` masked to the length (10_state.md R27). -/
def VecReg.ofImage (w : Word) : VecReg where
  len := w.extractLsb' 16 4
  data := pack (min (w.extractLsb' 16 4).toNat maxDim) (w.extractLsb' 0 10).getLsbD

/-- The SW bits of a written word a sample stores (10_state.md R30). -/
def storedSample (c : Config) (w : Word) : Word := (w.setWidth c.sw).setWidth 32

/-- CTRL: SRST resets the block, and CLRERR beside it adds nothing; CLRERR alone clears the error state (10_state.md R26). -/
def State.control (s : State) (w : Word) : State :=
  if w.getLsbD 0 then s.resetBlock
  else if w.getLsbD 1 then s.clearError
  else s

/-- The effect of a host write on the register it names (R54). Writes of read-only and reserved places are ignored. -/
def State.storeReg (s : State) (w : Word) : WinReg → State
  | .vec i => { s with v := s.v.set i (VecReg.ofImage w) }
  | .matRow m r => { s with m := s.m.set m { s.m[m] with rows := s.m[m].rows.set r (w.setWidth 10) } }
  | .matDims m => { s with m := s.m.set m { s.m[m] with height := w.extractLsb' 0 4, width := w.extractLsb' 8 4 } }
  | .sample i k =>
    { s with soft := s.soft.set i { s.soft[i] with samples := s.soft[i].samples.set k (storedSample s.config w) } }
  | .softLen i => { s with soft := s.soft.set i { s.soft[i] with len := w.extractLsb' 0 4 } }
  | .cmd => s.offerCommand w
  | .ctrl => s.control w
  | .id | .status | .res | .idx | .dmin | .errInfo | .genRow _ | .cbEntry _ | .reserved => s

/-- The window accepts only 32-bit accesses at multiples of 4 inside the window (R55). -/
def accessOk (off size : Nat) : Bool := decide (size = 4) && decide (off % 4 = 0) && decide (off < 0x1000)

/-- `MemRead(off, 4)` (R53). -/
def State.memRead (s : State) (off : Nat) : Word := s.image (regAt off)

/-- `MemWrite(off, 4, w)` (R54). -/
def State.memWrite (s : State) (off : Nat) (w : Word) : State := s.storeReg w (regAt off)

/-- Byte lane `b` of a word: bits `[8b+7:8b]` (R57). -/
def laneOf (w : Word) (b : Nat) : BitVec 8 := w.extractLsb' (8 * b) 8

/-- The byte the window lays on the lane of byte offset `a` (R57). No access reads less than a word (R55). -/
def State.windowByte (s : State) (a : Nat) : BitVec 8 := laneOf (s.memRead (a / 4 * 4)) (a % 4)

/-- Whether the host still waits for the sequencer after an access (43_control.md R136, 70_reset_and_hazards.md R191):
an accepted CMD write starts the wait, a STATUS read that returns BUSY = 0 ends it. -/
def awaitingAfter (s : State) : Access → Bool
  | .read off size => s.host.awaiting && !(accessOk off size && decide (regAt off = .status) && !s.busy)
  | .write off size _ =>
    s.host.awaiting || (accessOk off size && decide (regAt off = .cmd) && !s.busy && !s.err)

/-- What the bus answers an access (R53 to R55): a refused read returns 0 with the error. -/
def busReply (s : State) : Access → BusReply
  | .read off size => if accessOk off size then .read (s.memRead off) false else .read 0#32 true
  | .write off size _ => .write (!accessOk off size)

/-- The effect of an access on the block: an accepted write stores, a read or a refused access changes nothing (R54, R55, R60). -/
def accessEffect (s : State) : Access → State
  | .read _ _ => s
  | .write off size w => if accessOk off size then s.memWrite off w else s

/-- One host access, single-copy atomic (R59): its effect on the block, and what the host sees of it. -/
def hostAccess (a : Access) (s : State) : State :=
  (accessEffect s a).withHost { s.host with reply := some (busReply s a), awaiting := awaitingAfter s a }

/-- A hard reset: the effect of R182, and an access in progress ends with no effect on the block and no reply
(70_reset_and_hazards.md R181). -/
def hardReset (_cut : Option Access) (s : State) : State :=
  s.resetBlock.withHost { s.host with reply := none }

end Sys2Proof.Machine
end

