-- ==== Sys2Proof/Machine/Sequencer.lean ====
section
/-! DEFINITION. Machine/Sequencer.lean: the sequencer's step (43_control.md R131, R132) and one turn of the interleaving of host
accesses, sequencer steps and hard resets (20_memory.md R61, 60_exceptions.md R158). -/

namespace Sys2Proof.Machine

/-- `perform(w)`: the rule of the command the word names; a word that is no instruction takes its fault
(R132, 30_encoding.md R85). -/
def perform (w : Word) (s : State) : Host.Outcome State Fault Refusal :=
  match decode w with
  | .ok i => exec i s
  | .error e => raiseFault (faultOfDecode e) s

/-- `BUSY <- 0; PEND <- none` after the outcome of a command (R132). -/
def retireOutcome : Host.Outcome State Fault Refusal → Host.Outcome State Fault Refusal
  | .next s => .next s.retire
  | .fault f => .fault f
  | .refused r => .refused r

/-- The sequencer's turn: it has a step exactly when a command is pending (10_state.md R23, 43_control.md R132); else the
turn passes and the block keeps all state (60_exceptions.md R166). -/
def sequencerStep (s : State) : Host.Outcome State Fault Refusal :=
  match s.pend with
  | none => .next s
  | some w => retireOutcome (perform w s)

/-- One turn (20_memory.md R61). -/
def takeTurn (t : Turn) (s : State) : Host.Outcome State Fault Refusal :=
  match t with
  | .host a => .next (hostAccess a s)
  | .sequencer => sequencerStep s
  | .hardReset cut => .next (hardReset cut s)

/-- The next turn: the agenda's first, and with an empty agenda the sequencer's, so that a pending command is always
eventually performed (weak fairness, 43_control.md R132). -/
def nextTurn (s : State) : Turn :=
  match s.host.agenda with
  | [] => .sequencer
  | t :: _ => t

/-- The state with the agenda's first turn taken off. -/
def dropTurn (s : State) : State := s.withHost { s.host with agenda := s.host.agenda.tail }

/-- A command accepted, the host waiting for it, and the sequencer's turn next: what a host's accepted CMD write leaves
when the sequencer is the next to move (20_memory.md R56, R61). -/
def State.withPending (s : State) (w : Word) : State :=
  (s.acceptCommand w).withHost { s.host with agenda := .sequencer :: s.host.agenda, awaiting := true }

end Sys2Proof.Machine
end

