-- ==== Sys2Proof/Machine/Step.lean ====
section
/-! DEFINITION. Machine/Step.lean: one step of the machine. -/

namespace Sys2Proof.Machine

/-- One turn of the interleaving (20_memory.md R61); a configuration the spec does not allow is refused
(70_reset_and_hazards.md R182). -/
def step (s : State) : Host.Outcome State Fault Refusal :=
  if configLegal s.config then takeTurn (nextTurn s) (dropTurn s) else .refused .illegalConfiguration

/-- The command of a table row's bits placed where the sequencer takes its next command: accepted into PEND
(20_memory.md R56, R65), and the next turn the sequencer's. -/
def State.withFetchWord (s : State) (nbits w : Nat) : State := s.withPending (tableWord nbits w)

end Sys2Proof.Machine
end

