-- ==== Sys2Proof/Machine/Asm.lean ====
section
/-! DEFINITION. Machine/Asm.lean: the assembler syntax and the pseudo-instructions of 30_encoding.md R87, R88. -/

namespace Sys2Proof.Machine

/-- One operand as the assembler writes it (R87). -/
inductive AsmOperand where
  | vreg (n : Nat)
  | mreg (n : Nat)
  | sreg (n : Nat)
  | number (n : Nat)
  deriving DecidableEq, Repr

/-- The mnemonic of a command (R84, R87). -/
def mnemonicOf : Instr → String
  | .nop => "NOP"
  | .vmul _ _ _ => "VMUL"
  | .mmul _ _ _ => "MMUL"
  | .trans _ _ => "TRANS"
  | .venum _ _ _ => "VENUM"
  | .gload _ => "GLOAD"
  | .gread _ => "GREAD"
  | .enc _ _ => "ENC"
  | .cblook _ _ => "CBLOOK"
  | .hdist _ _ => "HDIST"
  | .corr _ _ => "CORR"
  | .dech _ _ => "DECH"
  | .decs _ _ => "DECS"

/-- The operand list of a command, destination first (R87). -/
def asmOperands : Instr → List AsmOperand
  | .nop => []
  | .vmul d a b => [.vreg d, .vreg a, .mreg b]
  | .mmul d a b => [.mreg d, .mreg a, .mreg b]
  | .trans d a => [.mreg d, .mreg a]
  | .venum d size index => [.vreg d, .number size.toNat, .number index.toNat]
  | .gload a => [.mreg a]
  | .gread d => [.mreg d]
  | .enc d a => [.vreg d, .vreg a]
  | .cblook d a => [.vreg d, .vreg a]
  | .hdist a b => [.vreg a, .vreg b]
  | .corr a b => [.sreg a, .vreg b]
  | .dech d a => [.vreg d, .vreg a]
  | .decs d a => [.vreg d, .sreg a]

/-- An operand's text: `v0` to `v15`, `m0` to `m3`, `s0` to `s3`, numbers decimal (R87). -/
def AsmOperand.text : AsmOperand → String
  | .vreg n => "v" ++ toString n
  | .mreg n => "m" ++ toString n
  | .sreg n => "s" ++ toString n
  | .number n => toString n

/-- A command's line of assembler: the mnemonic, then the operands separated by commas (R87). -/
def asmLine (i : Instr) : String :=
  match asmOperands i with
  | [] => mnemonicOf i
  | ops => mnemonicOf i ++ " " ++ ", ".intercalate (ops.map AsmOperand.text)

/-- The pseudo-instructions (R88). -/
inductive Pseudo where
  /-- VSET vd, [b0, ..., b(n-1)], 1 <= n <= 10; the type holds any list, see `Pseudo.expand` for the others. -/
  | vset (d : VIdx) (bits : List Bool)
  /-- ENCSRC vd, e, 0 <= e <= 63. -/
  | encsrc (d : VIdx) (e : Fin 64)
  /-- DECODE vd, va. -/
  | decode (d a : VIdx)
  /-- SDECODE vd, sa. -/
  | sdecode (d : VIdx) (a : SIdx)
  deriving DecidableEq, Repr

/-- The number whose binary digits are `bits`, element 0 the most significant: the sum of `b_j * 2^(n-1-j)` (R88). -/
def digitsValue : List Bool → Nat
  | [] => 0
  | b :: rest => b.toNat * 2 ^ rest.length + digitsValue rest

/-- The commands of a pseudo-instruction, in the order the host issues them, waiting for BUSY = 0 between (R88).
DESIGN CHOICE (log entry 23): R88 gives VSET for 1 to 10 elements only; a VSET of none or of more than 10 expands to no
command. Safe: no command of the block is made up for it. -/
def Pseudo.expand : Pseudo → List Instr
  | .vset d bits =>
    if 1 ≤ bits.length ∧ bits.length ≤ maxDim then
      [.venum d (BitVec.ofNat 4 bits.length) (BitVec.ofNat 10 (digitsValue bits))]
    else []
  | .encsrc d e => [.venum d 6#4 (BitVec.ofNat 10 e.val), .enc d d]
  | .decode d a => [.dech d a, .cblook d d]
  | .sdecode d a => [.decs d a, .cblook d d]

end Sys2Proof.Machine
end

