-- ==== Sys2Proof/Machine/Hazard.lean ====
section
/-! DEFINITION. Machine/Hazard.lean: which registers each command reads and writes (30_encoding.md R84), and the host accesses the
hazard rule of 70_reset_and_hazards.md R191 allows while a command is pending. -/

namespace Sys2Proof.Machine

/-- A register of the block of matrix register `m`. -/
def ofMat (m : MIdx) : WinReg → Bool
  | .matRow k _ => decide (k = m)
  | .matDims k => decide (k = m)
  | _ => false

/-- A register of the block of soft-sample register `s`. -/
def ofSoft (s : SIdx) : WinReg → Bool
  | .sample k _ => decide (k = s)
  | .softLen k => decide (k = s)
  | _ => false

/-- A register that holds the generator's rows. -/
def ofGen : WinReg → Bool
  | .genRow _ => true
  | _ => false

/-- A register that holds codebook entries. -/
def ofCodebook : WinReg → Bool
  | .cbEntry _ => true
  | _ => false

/-- The registers whose contents a command's rule reads (the pseudocode of 40, 41 and 42). CFG is read from STATUS. -/
def commandReads (i : Instr) (r : WinReg) : Bool :=
  match i with
  | .nop => false
  | .vmul _ a b => decide (r = .vec a) || ofMat b r
  | .mmul _ a b => ofMat a r || ofMat b r
  | .trans _ a => ofMat a r
  | .venum _ _ _ => false
  | .gload a => ofMat a r
  | .gread _ => ofGen r || decide (r = .status)
  | .enc _ a => decide (r = .vec a) || ofGen r || decide (r = .status)
  | .cblook _ a => decide (r = .vec a) || ofCodebook r || decide (r = .status)
  | .hdist a b => decide (r = .vec a) || decide (r = .vec b)
  | .corr a b => ofSoft a r || decide (r = .vec b)
  | .dech _ a => decide (r = .vec a) || ofCodebook r || decide (r = .status)
  | .decs _ a => ofSoft a r || ofCodebook r || decide (r = .status)

/-- The registers a command that succeeds writes: the column "writes" of R84. GLOAD's CFG is a bit of STATUS. -/
def commandWrites (i : Instr) (r : WinReg) : Bool :=
  match i with
  | .nop => false
  | .vmul d _ _ => decide (r = .vec d)
  | .mmul d _ _ => ofMat d r
  | .trans d _ => ofMat d r
  | .venum d _ _ => decide (r = .vec d)
  | .gload _ => ofGen r || ofCodebook r || decide (r = .dmin) || decide (r = .status)
  | .gread d => ofMat d r
  | .enc d _ => decide (r = .vec d)
  | .cblook d _ => decide (r = .vec d) || decide (r = .idx)
  | .hdist _ _ => decide (r = .res)
  | .corr _ _ => decide (r = .res)
  | .dech d _ => decide (r = .vec d) || decide (r = .res) || decide (r = .idx)
  | .decs d _ => decide (r = .vec d) || decide (r = .res) || decide (r = .idx)

/-- The registers a command's step may write: those of R84, and STATUS and ERRINFO (60_exceptions.md R152, 43_control.md R132). -/
def stepWrites (i : Instr) (r : WinReg) : Bool :=
  commandWrites i r || decide (r = .status) || decide (r = .errInfo)

/-- A host access that breaks no part of R191 while `i` is pending: no CMD write (a), no read of a register the step writes (b),
no write of a register the command reads or writes (c). A CTRL write, which R191 does not name and whose order
matters (60_exceptions.md R158), and the polling read of STATUS, whose value is what the host waits for, are not among
these. -/
def hazardFree (i : Instr) (a : Access) : Bool :=
  match a with
  | .read off size => !accessOk off size || !stepWrites i (regAt off)
  | .write off size _ =>
    !accessOk off size ||
      !(decide (regAt off = .cmd) || decide (regAt off = .ctrl) || commandReads i (regAt off) ||
        commandWrites i (regAt off))

/-- `hazardFree` for a pending word. A word that is no instruction reads no register and writes none but STATUS and ERRINFO, by its
fault (60_exceptions.md R152). -/
def hazardFreeWord (w : Word) (a : Access) : Bool :=
  match decode w with
  | .ok i => hazardFree i a
  | .error _ =>
    match a with
    | .read off size => !accessOk off size || !(decide (regAt off = .status) || decide (regAt off = .errInfo))
    | .write off size _ => !accessOk off size || !(decide (regAt off = .cmd) || decide (regAt off = .ctrl))

end Sys2Proof.Machine
end

