-- ==== Sys2Proof/Safety.lean ====
section
/-! DEFINITION. Safety.lean: the terms claims are stated in: legal shapes, distances and correlations as the source writes them,
the state a fault leaves, the invariants of the block, and the end of a run. -/

namespace Sys2Proof.Machine

/-- A length, height or width is legal (10_state.md R29). -/
def LegalLen (n : BitVec 4) : Prop := 1 ≤ n.toNat ∧ n.toNat ≤ 10

/-- Both dimensions of a matrix register are legal (10_state.md R29). -/
def LegalShape (r : MatReg) : Prop := LegalLen r.height ∧ LegalLen r.width

/-- `(Σ_j f j) mod 2` over `j < n`, as the source writes a sum over GF(2) (00_scope.md R7). -/
def modTwoSum (n : Nat) (f : Nat → Bool) : Bool :=
  decide ((∑ j ∈ Finset.range n, if f j = true then 1 else 0) % 2 = 1)

/-- The count of the positions below `n` at which two vectors differ (00_scope.md R11, R12). -/
def distance (n : Nat) (a b : Nat → Bool) : Nat := ((Finset.range n).filter fun i => a i ≠ b i).card

/-- `Σ received[i] · (2·codeword[i] − 1)`, as the source writes the correlation (00_scope.md R11). -/
def correlation (n : Nat) (x : Nat → Int) (c : Nat → Bool) : Int :=
  ∑ i ∈ Finset.range n, x i * (2 * (if c i = true then 1 else 0) - 1)

/-- What a fault of code `c` in performing the command word `w` leaves (60_exceptions.md R152). -/
def faulted (s : State) (w : Word) (c : BitVec 4) : State :=
  { s with err := true, errCode := c, errInfo := w, pend := none }

/-- A matrix is injective as a generator: no two source vectors give one codeword (41_code_definition.md R113). -/
def InjectiveCode (A : Nat → Nat → Bool) : Prop :=
  ∀ e f, e < f → f < 64 →
    ∃ i < 10, modTwoSum 6 (fun j => e.testBit (5 - j) && A j i) ≠ modTwoSum 6 (fun j => f.testBit (5 - j) && A j i)

/-- A codebook and its minimum distance are those of the generator rows `g` (R117 (a), (b), (c)). -/
structure CodebookOf (g : GenRows) (cb : Codebook) (dmin : BitVec 4) : Prop where
  /-- (a) `CB[e].src = src(e)`. -/
  src : ∀ e < 64, ∀ j < 6, (srcAt cb e).getLsbD j = e.testBit (5 - j)
  /-- (a) `CB[e].cw = vm(src(e), G)`. -/
  cw : ∀ e < 64, ∀ i < 10, (cwAt cb e).getLsbD i = modTwoSum 6 fun j => e.testBit (5 - j) && genBits g j i
  /-- (b) the 64 codewords are distinct. -/
  distinct : ∀ e f, e < f → f < 64 → cwAt cb e ≠ cwAt cb f
  /-- (c) DMIN is at most every distance of two entries. -/
  dminLe : ∀ e f, e < f → f < 64 → dmin.toNat ≤ distance 10 (cwAt cb e).getLsbD (cwAt cb f).getLsbD
  /-- (c) DMIN is one of them. -/
  dminAttained : ∃ e f, e < f ∧ f < 64 ∧ dmin.toNat = distance 10 (cwAt cb e).getLsbD (cwAt cb f).getLsbD

/-- R117: while CFG = 1, the codebook and DMIN are those of G. -/
def CodebookInv (s : State) : Prop := s.cfg = true → CodebookOf s.g s.cb s.dmin

/-- The invariants of the block. -/
structure BlockInv (s : State) : Prop where
  /-- 41_code_definition.md R117. -/
  codebook : CodebookInv s
  /-- DMIN is 0 while CFG = 0 (10_state.md R34). -/
  dminZero : s.cfg = false → s.dmin = 0#4
  /-- Bits of a vector register at and above its length are 0 (10_state.md R27). -/
  vectors : ∀ (i : VIdx) (j : Nat), (s.readV i).len.toNat ≤ j → (s.readV i).data.getLsbD j = false
  /-- A stored sample has SW bits (10_state.md R30). -/
  samples : ∀ (i : SIdx) (k : Fin 10) (j : Nat), s.config.sw ≤ j → ((s.readS i).samples[k]).getLsbD j = false
  /-- ERRCODE and ERRINFO are 0 while ERR = 0 (10_state.md R25, R37). -/
  noError : s.err = false → s.errCode = 0#4 ∧ s.errInfo = 0#32
  /-- ERRCODE is one of the eight codes while ERR = 1 (60_exceptions.md R151). -/
  errorCode : s.err = true → 1 ≤ s.errCode.toNat ∧ s.errCode.toNat ≤ 8
  /-- No command is pending while ERR = 1 (60_exceptions.md R154). -/
  noCommandInError : s.err = true → s.pend = none
  /-- CMD's read value equals PEND while BUSY = 1 (10_state.md R39). -/
  pendingReadable : ∀ w, s.pend = some w → s.cmdLast = w
  /-- A host whose accepted command is pending has not yet read BUSY = 0 after it (20_memory.md R61, 43_control.md R136). -/
  awaited : s.pend ≠ none → s.host.awaiting = true

/-- The host access of a turn: its own, or the one a hard reset cuts short. -/
def Turn.access : Turn → Option Access
  | .host a => some a
  | .sequencer => none
  | .hardReset cut => cut

/-- A run is over (43_control.md R136): the host has issued its last access (turns of the sequencer and of the reset input may be
left), and a STATUS read after its last accepted CMD write has returned BUSY = 0. -/
def RunOver (s : State) : Prop := (∀ t ∈ s.host.agenda, t.access = none) ∧ s.host.awaiting = false

/-- The run from `s` ends after `n` steps, in `t`: the first state in which it is over. Its result is the register state of
`t` (R136), whatever turns come after. -/
def RunEnds (s : State) (n : Nat) (t : State) : Prop :=
  Host.Core.run Sys2Proof.core n s = .next t ∧ RunOver t ∧
    ∀ k < n, ∀ u : State, Host.Core.run Sys2Proof.core k s = .next u → ¬ RunOver u

/-- A run that has faulted: ERR = 1 at its end (R136). -/
def FaultedRun (s : State) (n : Nat) (t : State) : Prop := RunEnds s n t ∧ t.err = true

/-- A run a claim may be made about: ERR = 0 and OVR = 0 at its end (R136). -/
def CleanRun (s : State) (n : Nat) (t : State) : Prop := RunEnds s n t ∧ t.err = false ∧ t.ovr = false

end Sys2Proof.Machine
end

