-- ==== Sys2Proof/Certificates/Slice0/Obligations.lean ====
section
/-! DEFINITION. Certificates/Slice0/Obligations.lean: the statements for the provers. Each is about every state, operand and
configuration unless it says otherwise, so it also covers states no run reaches. -/

open Sys2Proof Sys2Proof.Machine

/-! ## Encoding (30_encoding.md) -/

/-- R81, R84: no bit of an encoding is dropped; the decoder gives back every instruction it is given. -/
def Obligations.EncodeThenDecodeIsIdentity : Prop :=
  ∀ i : Instr, decode (encode i) = .ok i

/-- R81, R85: each word has one meaning; a word that decodes is the encoding of what it decodes to. -/
def Obligations.DecodedWordIsItsEncoding : Prop :=
  ∀ (w : Word) (i : Instr), decode w = .ok i → encode i = w

/-- R82, R83, R85: which words are ILLEGAL_OPCODE words, and which fields make a word a RESERVED_FIELD word, opcode by
opcode. -/
def Obligations.ReservedWordsAreRejectedByName : Prop :=
  ∀ w : Word,
    let op := (w.extractLsb' 26 6).toNat
    let d := (w.extractLsb' 22 4).toNat
    let a := (w.extractLsb' 18 4).toNat
    let b := (w.extractLsb' 14 4).toNat
    let imm := (w.extractLsb' 0 14).toNat
    (decode w = .error .illegalOpcode ↔ 0x0D ≤ op) ∧
    (op = 0x00 → (decode w = .error .reservedField ↔ d ≠ 0 ∨ a ≠ 0 ∨ b ≠ 0 ∨ imm ≠ 0)) ∧
    (op = 0x01 → (decode w = .error .reservedField ↔ 4 ≤ b ∨ imm ≠ 0)) ∧
    (op = 0x02 → (decode w = .error .reservedField ↔ 4 ≤ d ∨ 4 ≤ a ∨ 4 ≤ b ∨ imm ≠ 0)) ∧
    (op = 0x03 → (decode w = .error .reservedField ↔ 4 ≤ d ∨ 4 ≤ a ∨ b ≠ 0 ∨ imm ≠ 0)) ∧
    (op = 0x04 → (decode w = .error .reservedField ↔ a ≠ 0 ∨ b ≠ 0)) ∧
    (op = 0x05 → (decode w = .error .reservedField ↔ d ≠ 0 ∨ 4 ≤ a ∨ b ≠ 0 ∨ imm ≠ 0)) ∧
    (op = 0x06 → (decode w = .error .reservedField ↔ 4 ≤ d ∨ a ≠ 0 ∨ b ≠ 0 ∨ imm ≠ 0)) ∧
    (op = 0x07 → (decode w = .error .reservedField ↔ b ≠ 0 ∨ imm ≠ 0)) ∧
    (op = 0x08 → (decode w = .error .reservedField ↔ b ≠ 0 ∨ imm ≠ 0)) ∧
    (op = 0x09 → (decode w = .error .reservedField ↔ d ≠ 0 ∨ imm ≠ 0)) ∧
    (op = 0x0A → (decode w = .error .reservedField ↔ d ≠ 0 ∨ 4 ≤ a ∨ imm ≠ 0)) ∧
    (op = 0x0B → (decode w = .error .reservedField ↔ b ≠ 0 ∨ imm ≠ 0)) ∧
    (op = 0x0C → (decode w = .error .reservedField ↔ 4 ≤ a ∨ b ≠ 0 ∨ imm ≠ 0))

/-- R89: the worked encodings decode to the commands they stand for. -/
def Obligations.WorkedEncodingsDecode : Prop :=
  decode 0x00000000#32 = .ok .nop ∧
  decode 0x0484C000#32 = .ok (.vmul 2 1 3) ∧
  decode 0x08804000#32 = .ok (.mmul 2 0 1) ∧
  decode 0x0C400000#32 = .ok (.trans 1 0) ∧
  decode 0x10401820#32 = .ok (.venum 1 6#4 32#10) ∧
  decode 0x14000000#32 = .ok (.gload 0) ∧
  decode 0x18C00000#32 = .ok (.gread 3) ∧
  decode 0x1C840000#32 = .ok (.enc 2 1) ∧
  decode 0x210C0000#32 = .ok (.cblook 4 3) ∧
  decode 0x2408C000#32 = .ok (.hdist 2 3) ∧
  decode 0x28008000#32 = .ok (.corr 0 2) ∧
  decode 0x2CC80000#32 = .ok (.dech 3 2) ∧
  decode 0x31440000#32 = .ok (.decs 5 1)

/-! ## The step (43_control.md, 20_memory.md) -/

/-- R132: when the next turn is the sequencer's and PEND decodes, the step performs that command on the state with the turn
taken off the agenda, then clears PEND and so BUSY. -/
def Obligations.StepPerformsThePendingCommand : Prop :=
  ∀ (s t : State) (w : Word) (i : Instr),
    configLegal s.config = true → nextTurn s = .sequencer → s.pend = some w → decode w = .ok i →
    exec i (dropTurn s) = .next t → step s = .next { t with pend := none }

/-- R85, R132, R152: a pending word that is no instruction faults with code 1 or 2, ERRINFO is the word, BUSY is cleared and
nothing else changes. -/
def Obligations.StepFaultsOnUndecodableWord : Prop :=
  ∀ (s : State) (w : Word),
    configLegal s.config = true → nextTurn s = .sequencer → s.pend = some w →
    (decode w = .error .illegalOpcode → step s = .next (faulted (dropTurn s) w 1#4)) ∧
    (decode w = .error .reservedField → step s = .next (faulted (dropTurn s) w 2#4))

/-- R31, R132, R182: on a configuration the spec allows (2 <= SW <= 27, and an injective G_RESET where it is a matrix) every
step answers a next state; on any other the step is refused. That the refusal also covers SW is the model's reading (log entry 3). -/
def Obligations.StepIsTotalOnLegalConfigurations : Prop :=
  ∀ s : State,
    let legal := 2 ≤ s.config.sw ∧ s.config.sw ≤ 27 ∧ ∀ G, s.config.gReset = some G → InjectiveCode (genBits G)
    (legal → ∃ t, step s = .next t) ∧ (¬ legal → step s = .refused .illegalConfiguration)

/-- The model's fairness (log entry 8, for R132's weak fairness). After all turns of the agenda and one more, whatever the turns
were, the bus is idle and no command is pending. And where no turn is a reset, hard or soft, a pending word is not discarded: at
some step of that run it is still pending, the turn is the sequencer's, and the step performs it and clears PEND. -/
def Obligations.PendingCommandIsEventuallyPerformed : Prop :=
  ∀ s : State, configLegal s.config = true →
    (∃ t, Host.Core.run Sys2Proof.core (s.host.agenda.length + 1) s = .next t ∧ t.host.agenda = [] ∧ t.pend = none) ∧
    ∀ w, s.pend = some w →
      (∀ cut, .hardReset cut ∉ s.host.agenda) →
      (∀ v : Word, v.getLsbD 0 = true → .host (.write 0x00C 4 v) ∉ s.host.agenda) →
      ∃ (n : Nat) (u v : State), n ≤ s.host.agenda.length ∧
        Host.Core.run Sys2Proof.core n s = .next u ∧ nextTurn u = .sequencer ∧ u.pend = some w ∧
        perform w (dropTurn u) = .next v ∧
        Host.Core.run Sys2Proof.core (n + 1) s = .next { v with pend := none }

/-- R23, R166: with no command pending the sequencer's turn leaves everything as it was, but for the agenda. That there is such
a turn, and that it passes, is the model's (log entries 1 and 7). -/
def Obligations.IdleSequencerKeepsAllState : Prop :=
  ∀ s : State, configLegal s.config = true → nextTurn s = .sequencer → s.pend = none → step s = .next (dropTurn s)

/-! ## Faults (60_exceptions.md) -/

/-- R152: the sequencer's step of a pending command either leaves ERR, ERRCODE and ERRINFO alone, or it is a fault, which writes
ERR, ERRCODE, ERRINFO (the command word) and BUSY and nothing else: no partial effect. Either way no command is left pending. -/
def Obligations.FaultsArePrecise : Prop :=
  ∀ (s : State) (w : Word), configLegal s.config = true → nextTurn s = .sequencer → s.pend = some w →
    ∃ t, step s = .next t ∧ t.pend = none ∧
      ((t.err = s.err ∧ t.errCode = s.errCode ∧ t.errInfo = s.errInfo) ∨
        ∃ c : FaultCode, t = faulted (dropTurn s) w c.number)

/-- R101, R102, R103, R153: the faults of the linear-algebra commands and their order. -/
def Obligations.LinearCommandFaults : Prop :=
  ∀ (s : State) (w : Word), s.pend = some w →
    (∀ (d a : VIdx) (b : MIdx),
      let x := s.readV a
      let A := s.readM b
      (¬ (LegalLen x.len ∧ LegalShape A) → exec (.vmul d a b) s = .next (faulted s w 4#4)) ∧
      (LegalLen x.len → LegalShape A → x.len ≠ A.height → exec (.vmul d a b) s = .next (faulted s w 5#4))) ∧
    (∀ d a b : MIdx,
      let A := s.readM a
      let B := s.readM b
      (¬ (LegalShape A ∧ LegalShape B) → exec (.mmul d a b) s = .next (faulted s w 4#4)) ∧
      (LegalShape A → LegalShape B → A.width ≠ B.height → exec (.mmul d a b) s = .next (faulted s w 5#4))) ∧
    (∀ d a : MIdx, ¬ LegalShape (s.readM a) → exec (.trans d a) s = .next (faulted s w 4#4))

/-- R112, R113, R114, R115, R116, R153: the faults of the code-definition commands and their order. -/
def Obligations.CodeCommandFaults : Prop :=
  ∀ (s : State) (w : Word), s.pend = some w →
    (∀ (d : VIdx) (size : BitVec 4) (index : BitVec 10),
      ¬ (LegalLen size ∧ index.toNat < 2 ^ size.toNat) →
        exec (.venum d size index) s = .next (faulted s w 6#4)) ∧
    (∀ a : MIdx,
      let A := s.readM a
      (¬ LegalShape A → exec (.gload a) s = .next (faulted s w 4#4)) ∧
      (LegalShape A → ¬ (A.height = 6#4 ∧ A.width = 10#4) → exec (.gload a) s = .next (faulted s w 5#4)) ∧
      (A.height = 6#4 → A.width = 10#4 → ¬ InjectiveCode A.bits →
        exec (.gload a) s = .next (faulted s w 7#4))) ∧
    (∀ d : MIdx, s.cfg = false → exec (.gread d) s = .next (faulted s w 3#4)) ∧
    (∀ d a : VIdx,
      let x := s.readV a
      (s.cfg = false → exec (.enc d a) s = .next (faulted s w 3#4)) ∧
      (s.cfg = true → ¬ LegalLen x.len → exec (.enc d a) s = .next (faulted s w 4#4)) ∧
      (s.cfg = true → LegalLen x.len → x.len ≠ 6#4 → exec (.enc d a) s = .next (faulted s w 5#4)) ∧
      (s.cfg = false → exec (.cblook d a) s = .next (faulted s w 3#4)) ∧
      (s.cfg = true → ¬ LegalLen x.len → exec (.cblook d a) s = .next (faulted s w 4#4)) ∧
      (s.cfg = true → LegalLen x.len → x.len ≠ 10#4 → exec (.cblook d a) s = .next (faulted s w 5#4)) ∧
      (s.cfg = true → x.len = 10#4 → (∀ e < 64, cwAt s.cb e ≠ x.data) →
        exec (.cblook d a) s = .next (faulted s w 8#4)))

/-- R121, R122, R123, R124, R153: the faults of the distance, correlation and decoder commands and their order. -/
def Obligations.DecoderCommandFaults : Prop :=
  ∀ (s : State) (w : Word), s.pend = some w →
    (∀ a b : VIdx,
      (¬ (LegalLen (s.readV a).len ∧ LegalLen (s.readV b).len) →
        exec (.hdist a b) s = .next (faulted s w 4#4)) ∧
      (LegalLen (s.readV a).len → LegalLen (s.readV b).len → (s.readV a).len ≠ (s.readV b).len →
        exec (.hdist a b) s = .next (faulted s w 5#4))) ∧
    (∀ (a : SIdx) (b : VIdx),
      (¬ (LegalLen (s.readS a).len ∧ LegalLen (s.readV b).len) →
        exec (.corr a b) s = .next (faulted s w 4#4)) ∧
      (LegalLen (s.readS a).len → LegalLen (s.readV b).len → (s.readS a).len ≠ (s.readV b).len →
        exec (.corr a b) s = .next (faulted s w 5#4))) ∧
    (∀ d a : VIdx,
      (s.cfg = false → exec (.dech d a) s = .next (faulted s w 3#4)) ∧
      (s.cfg = true → ¬ LegalLen (s.readV a).len → exec (.dech d a) s = .next (faulted s w 4#4)) ∧
      (s.cfg = true → LegalLen (s.readV a).len → (s.readV a).len ≠ 10#4 →
        exec (.dech d a) s = .next (faulted s w 5#4))) ∧
    (∀ (d : VIdx) (a : SIdx),
      (s.cfg = false → exec (.decs d a) s = .next (faulted s w 3#4)) ∧
      (s.cfg = true → ¬ LegalLen (s.readS a).len → exec (.decs d a) s = .next (faulted s w 4#4)) ∧
      (s.cfg = true → LegalLen (s.readS a).len → (s.readS a).len ≠ 10#4 →
        exec (.decs d a) s = .next (faulted s w 5#4)))

/-- R154: once ERR is set no turn but a reset or a CTRL write of SRST or CLRERR changes ERR, ERRCODE or ERRINFO, and none at
all accepts or performs a command. `pend = none` is the invariant `BlockInv.noCommandInError`. -/
def Obligations.ErrorStateIsSticky : Prop :=
  ∀ s t : State, s.err = true → s.pend = none → step s = .next t →
    (∀ cut, nextTurn s ≠ .hardReset cut) →
    (∀ w, nextTurn s = .host (.write 0x00C 4 w) → w.getLsbD 0 = false ∧ w.getLsbD 1 = false) →
    t.err = true ∧ t.errCode = s.errCode ∧ t.errInfo = s.errInfo ∧ t.cmdLast = s.cmdLast ∧ t.pend = none

/-! ## Results (40_gf2_linear_algebra.md, 41_code_definition.md, 42_decoders.md). Each conclusion is the whole next state, so
each says too what the command leaves unchanged. -/

/-- R133: only the zero word is NOP, every other word of its opcode is a RESERVED_FIELD word; NOP has no effect, and the step
that performs it only clears BUSY. -/
def Obligations.NopHasNoEffect : Prop :=
  (∀ w : Word, w.extractLsb' 26 6 = 0#6 → decode w = if w = 0#32 then .ok .nop else .error .reservedField) ∧
  (∀ s : State, exec .nop s = .next s) ∧
  ∀ s : State, configLegal s.config = true → nextTurn s = .sequencer → s.pend = some 0#32 →
    step s = .next { dropTurn s with pend := none }

/-- R101 VMUL. -/
def Obligations.VmulIsTheVectorMatrixProduct : Prop :=
  ∀ (d a : VIdx) (b : MIdx) (s : State),
    let x := s.readV a
    let A := s.readM b
    LegalLen x.len → LegalShape A → x.len = A.height →
    ∃ r : VecReg, exec (.vmul d a b) s = .next { s with v := s.v.set d r } ∧ r.len = A.width ∧
      ∀ i, r.data.getLsbD i =
        (decide (i < A.width.toNat) && modTwoSum A.height.toNat fun j => x.data.getLsbD j && A.bits j i)

/-- R102 MMUL. -/
def Obligations.MmulIsTheMatrixProduct : Prop :=
  ∀ (d a b : MIdx) (s : State),
    let A := s.readM a
    let B := s.readM b
    LegalShape A → LegalShape B → A.width = B.height →
    ∃ r : MatReg, exec (.mmul d a b) s = .next { s with m := s.m.set d r } ∧
      r.height = A.height ∧ r.width = B.width ∧
      ∀ i j, r.bits i j =
        (decide (i < A.height.toNat) && decide (j < B.width.toNat) &&
          modTwoSum A.width.toNat fun k => A.bits i k && B.bits k j)

/-- R103 TRANS. -/
def Obligations.TransSwapsRowsAndColumns : Prop :=
  ∀ (d a : MIdx) (s : State),
    let A := s.readM a
    LegalShape A →
    ∃ r : MatReg, exec (.trans d a) s = .next { s with m := s.m.set d r } ∧
      r.height = A.width ∧ r.width = A.height ∧
      ∀ i j, r.bits i j = (decide (i < A.width.toNat) && decide (j < A.height.toNat) && A.bits j i)

/-- R112 VENUM. -/
def Obligations.VenumLoadsTheEnumeratedVector : Prop :=
  ∀ (d : VIdx) (size : BitVec 4) (index : BitVec 10) (s : State),
    LegalLen size → index.toNat < 2 ^ size.toNat →
    ∃ r : VecReg, exec (.venum d size index) s = .next { s with v := s.v.set d r } ∧ r.len = size ∧
      ∀ j, r.data.getLsbD j = (decide (j < size.toNat) && index.getLsbD (size.toNat - 1 - j))

/-- R113 GLOAD of an injective 6 x 10 matrix: G is the matrix, CB and DMIN are its codebook and minimum distance, CFG is set. -/
def Obligations.GloadInstallsTheCode : Prop :=
  ∀ (a : MIdx) (s : State),
    let A := s.readM a
    A.height = 6#4 → A.width = 10#4 → InjectiveCode A.bits →
    ∃ (g : GenRows) (cb : Codebook) (dmin : BitVec 4),
      exec (.gload a) s = .next { s with g := g, cb := cb, dmin := dmin, cfg := true } ∧
      (∀ r < 6, ∀ c < 10, genBits g r c = A.bits r c) ∧ CodebookOf g cb dmin

/-- R114 GREAD. -/
def Obligations.GreadCopiesTheGenerator : Prop :=
  ∀ (d : MIdx) (s : State), s.cfg = true →
    ∃ r : MatReg, exec (.gread d) s = .next { s with m := s.m.set d r } ∧ r.height = 6#4 ∧ r.width = 10#4 ∧
      ∀ i j, r.bits i j = (decide (i < 6) && decide (j < 10) && genBits s.g i j)

/-- R115 ENC. -/
def Obligations.EncMultipliesByTheGenerator : Prop :=
  ∀ (d a : VIdx) (s : State), s.cfg = true → (s.readV a).len = 6#4 →
    ∃ r : VecReg, exec (.enc d a) s = .next { s with v := s.v.set d r } ∧ r.len = 10#4 ∧
      ∀ i < 10, r.data.getLsbD i = modTwoSum 6 fun j => (s.readV a).data.getLsbD j && genBits s.g j i

/-- R116 CBLOOK of the codeword of an entry, the least one where several hold it (while CFG = 1 there is one, R117). -/
def Obligations.CblookFindsTheEntry : Prop :=
  ∀ (d a : VIdx) (s : State) (e : Nat), s.cfg = true → (s.readV a).len = 10#4 → e < 64 →
    cwAt s.cb e = (s.readV a).data → (∀ f < e, cwAt s.cb f ≠ (s.readV a).data) →
    ∃ r : VecReg, exec (.cblook d a) s = .next { s with v := s.v.set d r, idx := BitVec.ofNat 6 e } ∧
      r.len = 6#4 ∧ r.data = (srcAt s.cb e).setWidth 10

/-- R121 HDIST. The bits at and above the length are 0 in every register a run reaches (`BlockInv.vectors`). -/
def Obligations.HdistCountsDifferingPositions : Prop :=
  ∀ (a b : VIdx) (s : State), BlockInv s →
    LegalLen (s.readV a).len → (s.readV a).len = (s.readV b).len →
    exec (.hdist a b) s =
      .next { s with
        res := BitVec.ofNat 32
          (distance (s.readV a).len.toNat (s.readV a).data.getLsbD (s.readV b).data.getLsbD) }

/-- R122 CORR: RES is the exact sum; it never overflows on a legal SW. -/
def Obligations.CorrIsTheExactCorrelation : Prop :=
  ∀ (a : SIdx) (b : VIdx) (s : State), configLegal s.config = true →
    LegalLen (s.readS a).len → (s.readS a).len = (s.readV b).len →
    ∃ res : Word, exec (.corr a b) s = .next { s with res := res } ∧
      res.toInt =
        correlation (s.readS a).len.toNat ((s.readS a).value s.config) (s.readV b).data.getLsbD

/-- R123 DECH: the first entry of least Hamming distance, its codeword and that distance. -/
def Obligations.DechFindsTheNearestCodeword : Prop :=
  ∀ (d a : VIdx) (s : State), s.cfg = true → (s.readV a).len = 10#4 →
    let dist := fun e => distance 10 (cwAt s.cb e).getLsbD (s.readV a).data.getLsbD
    ∃ e < 64,
      exec (.dech d a) s =
        .next { s with
          v := s.v.set d { len := 10#4, data := cwAt s.cb e }
          res := BitVec.ofNat 32 (dist e)
          idx := BitVec.ofNat 6 e } ∧
      (∀ f < 64, dist e ≤ dist f) ∧ ∀ f < e, dist e < dist f

/-- R124 DECS: the first entry of greatest correlation, its codeword and that score, exact on a legal SW. -/
def Obligations.DecsFindsTheBestCorrelation : Prop :=
  ∀ (d : VIdx) (a : SIdx) (s : State), configLegal s.config = true → s.cfg = true → (s.readS a).len = 10#4 →
    let score := fun e => correlation 10 ((s.readS a).value s.config) (cwAt s.cb e).getLsbD
    ∃ e < 64, ∃ res : Word,
      exec (.decs d a) s =
        .next { s with
          v := s.v.set d { len := 10#4, data := cwAt s.cb e }
          res := res
          idx := BitVec.ofNat 6 e } ∧
      res.toInt = score e ∧ (∀ f < 64, score f ≤ score e) ∧ ∀ f < e, score f < score e

/-! ## Frames over the whole window -/

/-- R84, R152: after a command performed without a fault, every byte of the window outside the registers of the column "writes"
reads as before; after a faulting one, every byte outside STATUS and ERRINFO does. -/
def Obligations.CommandFrameOverTheWindow : Prop :=
  ∀ (i : Instr) (s t : State) (w : Word) (p : Nat), s.pend = some w → exec i s = .next t → p < 0x1000 →
    (t.pend = some w → commandWrites i (regAt (p / 4 * 4)) = false → t.windowByte p = s.windowByte p) ∧
    (t.pend = none → regAt (p / 4 * 4) ≠ .status → regAt (p / 4 * 4) ≠ .errInfo →
      t.windowByte p = s.windowByte p)

/-- R25, R30, R35, R36, R38, R84, R117, R152: no command writes S, OVR or CMDLAST; only HDIST, CORR, DECH and DECS write RES, only
DECH, DECS and CBLOOK write IDX, and only GLOAD writes G, CB, DMIN and CFG. Nor does one write the configuration (R40), which
stands in State by log entry 2, or the model's own host side (log entries 1, 5 and 6). -/
def Obligations.OnlyNamedCommandsWriteResultsAndCode : Prop :=
  ∀ (i : Instr) (s t : State), exec i s = .next t →
    t.soft = s.soft ∧ t.config = s.config ∧ t.ovr = s.ovr ∧ t.cmdLast = s.cmdLast ∧ t.host = s.host ∧
    ((∀ a b, i ≠ .hdist a b) → (∀ a b, i ≠ .corr a b) → (∀ d a, i ≠ .dech d a) → (∀ d a, i ≠ .decs d a) →
      t.res = s.res) ∧
    ((∀ d a, i ≠ .cblook d a) → (∀ d a, i ≠ .dech d a) → (∀ d a, i ≠ .decs d a) → t.idx = s.idx) ∧
    ((∀ a, i ≠ .gload a) → t.g = s.g ∧ t.cb = s.cb ∧ t.dmin = s.dmin ∧ t.cfg = s.cfg)

/-- R27, R28, R29: every vector or matrix register a command changes has legal dimensions and 0 in every bit outside them. -/
def Obligations.CommandResultsAreWellShaped : Prop :=
  ∀ (i : Instr) (s t : State), exec i s = .next t →
    (∀ k, t.readV k = s.readV k ∨
      (LegalLen (t.readV k).len ∧ ∀ j, (t.readV k).len.toNat ≤ j → (t.readV k).data.getLsbD j = false)) ∧
    ∀ k, t.readM k = s.readM k ∨
      (LegalShape (t.readM k) ∧
        ∀ r c, (t.readM k).height.toNat ≤ r ∨ (t.readM k).width.toNat ≤ c → (t.readM k).bits r c = false)

/-! ## The register window (20_memory.md, 10_state.md) -/

/-- R52: the register at every offset of the window, and nothing anywhere else in it. -/
def Obligations.WindowMapIsExact : Prop :=
  (regAt 0x000 = .id ∧ regAt 0x004 = .cmd ∧ regAt 0x008 = .status ∧ regAt 0x00C = .ctrl ∧ regAt 0x010 = .res ∧
    regAt 0x014 = .idx ∧ regAt 0x018 = .dmin ∧ regAt 0x01C = .errInfo) ∧
  (∀ i : VIdx, regAt (0x040 + 4 * i.val) = .vec i) ∧
  (∀ (m : MIdx) (r : Fin 10), regAt (0x100 + 0x40 * m.val + 4 * r.val) = .matRow m r) ∧
  (∀ m : MIdx, regAt (0x100 + 0x40 * m.val + 0x28) = .matDims m) ∧
  (∀ (i : SIdx) (k : Fin 10), regAt (0x200 + 0x40 * i.val + 4 * k.val) = .sample i k) ∧
  (∀ i : SIdx, regAt (0x200 + 0x40 * i.val + 0x28) = .softLen i) ∧
  (∀ r : Fin 6, regAt (0x300 + 4 * r.val) = .genRow r) ∧
  (∀ e : Fin 64, regAt (0x400 + 4 * e.val) = .cbEntry e) ∧
  ∀ off, off % 4 = 0 → off < 0x1000 → regAt off ≠ .reserved → (regAt off).offset = some off

/-- R53, R54, R55, R59, R60: the host's turn performs its access in one step. A read answers the image of its register and
changes nothing of the block; a write stores; a refused access is a bus error, a read of it returns 0, and nothing of the block
changes. Only the model's own host side (log entries 1, 5 and 6) differs otherwise. -/
def Obligations.HostAccessTurn : Prop :=
  ∀ (s : State) (a : Access), configLegal s.config = true → nextTurn s = .host a →
    ∃ h : HostSide, h.agenda = s.host.agenda.tail ∧
      match a with
      | .read off size =>
        step s = .next (s.withHost h) ∧
        h.reply = some (if size = 4 ∧ off % 4 = 0 ∧ off < 0x1000 then .read (s.memRead off) false
          else .read 0#32 true)
      | .write off size w =>
        if size = 4 ∧ off % 4 = 0 ∧ off < 0x1000 then
          step s = .next ((s.memWrite off w).withHost h) ∧ h.reply = some (.write false)
        else step s = .next (s.withHost h) ∧ h.reply = some (.write true)

/-- R25: every bit of the STATUS image. -/
def Obligations.StatusImageFields : Prop :=
  ∀ (s : State) (k : Nat), k < 32 →
    (s.memRead 0x008).getLsbD k =
      if k = 0 then s.pend.isSome
      else if k = 1 then s.err
      else if k = 2 then s.ovr
      else if k = 3 then s.cfg
      else if 8 ≤ k ∧ k ≤ 11 then s.errCode.getLsbD (k - 8)
      else false

/-- R24, R26, R34, R35, R36, R37, R38: what the other control registers read. -/
def Obligations.ControlRegisterReads : Prop :=
  ∀ s : State,
    s.memRead 0x000 = 0x4C430A06#32 ∧ s.memRead 0x004 = s.cmdLast ∧ s.memRead 0x00C = 0#32 ∧
    s.memRead 0x010 = s.res ∧ (s.memRead 0x014).toNat = s.idx.toNat ∧ (s.memRead 0x018).toNat = s.dmin.toNat ∧
    s.memRead 0x01C = s.errInfo

/-- R27: a vector register written by the host reads back with its length as written, its data masked to the length and
every reserved bit 0. -/
def Obligations.VectorWriteReadsBackMasked : Prop :=
  ∀ (s : State) (i : VIdx) (w : Word) (k : Nat), k < 32 →
    ((s.memWrite (0x040 + 4 * i.val) w).memRead (0x040 + 4 * i.val)).getLsbD k =
      if k < 10 then w.getLsbD k && decide (k < (w.extractLsb' 16 4).toNat)
      else if 16 ≤ k ∧ k < 20 then w.getLsbD k
      else false

/-- R28: matrix rows read back their ten bits, unmasked by width; dims reads back height and width. -/
def Obligations.MatrixWriteReadsBack : Prop :=
  ∀ (s : State) (m : MIdx) (w : Word) (k : Nat), k < 32 →
    (∀ r : Fin 10,
      ((s.memWrite (0x100 + 0x40 * m.val + 4 * r.val) w).memRead (0x100 + 0x40 * m.val + 4 * r.val)).getLsbD k =
        (decide (k < 10) && w.getLsbD k)) ∧
    ((s.memWrite (0x100 + 0x40 * m.val + 0x28) w).memRead (0x100 + 0x40 * m.val + 0x28)).getLsbD k =
      ((decide (k < 4) || decide (8 ≤ k ∧ k < 12)) && w.getLsbD k)

/-- R30: a sample stores the SW low bits of the written word and reads back as their sign extension; len reads back four bits. -/
def Obligations.SampleWriteReadsBackSigned : Prop :=
  ∀ (s : State) (i : SIdx) (w : Word) (k : Nat), configLegal s.config = true → k < 32 →
    (∀ j : Fin 10,
      ((s.memWrite (0x200 + 0x40 * i.val + 4 * j.val) w).memRead (0x200 + 0x40 * i.val + 4 * j.val)).getLsbD k =
        w.getLsbD (min k (s.config.sw - 1))) ∧
    ((s.memWrite (0x200 + 0x40 * i.val + 0x28) w).memRead (0x200 + 0x40 * i.val + 0x28)).getLsbD k =
      (decide (k < 4) && w.getLsbD k)

/-- R54: a host write of a register other than CMD and CTRL leaves every byte of every other register as it read, and a write
of a read-only or reserved place leaves every byte. -/
def Obligations.HostWriteFrame : Prop :=
  ∀ (s : State) (off p : Nat) (w : Word), off % 4 = 0 → off < 0x1000 → p < 0x1000 → off ≠ 0x004 → off ≠ 0x00C →
    (p / 4 * 4 ≠ off → (s.memWrite off w).windowByte p = s.windowByte p) ∧
    ((off < 0x040 ∨ 0x300 ≤ off ∨ regAt off = .reserved) → s.memWrite off w = s)

/-- R56: offering a command. -/
def Obligations.OfferingACommand : Prop :=
  ∀ (s : State) (w : Word),
    (s.pend ≠ none → s.memWrite 0x004 w = { s with ovr := true }) ∧
    (s.pend = none → s.err = true → s.memWrite 0x004 w = s) ∧
    (s.pend = none → s.err = false → s.memWrite 0x004 w = { s with pend := some w, cmdLast := w })

/-- R26: CTRL reads 0, and its actions. SRST takes the whole block to its reset state, with CLRERR beside it or not; CLRERR alone
clears the error state; neither bit does nothing, and no other bit matters. That SRST keeps the model's own host side is the
model's choice (log entry 19). -/
def Obligations.ControlActions : Prop :=
  ∀ (s : State) (w : Word),
    s.memRead 0x00C = 0#32 ∧
    (w.getLsbD 0 = true → s.memWrite 0x00C w = (State.resetWith s.config).withHost s.host) ∧
    (w.getLsbD 0 = false → w.getLsbD 1 = true →
      s.memWrite 0x00C w = { s with err := false, ovr := false, errCode := 0#4, errInfo := 0#32 }) ∧
    (w.getLsbD 0 = false → w.getLsbD 1 = false → s.memWrite 0x00C w = s)

/-- R60: writing the same value twice to any register but CMD and CTRL leaves the state the first write left. -/
def Obligations.OperandWritesAreIdempotent : Prop :=
  ∀ (s : State) (off : Nat) (w : Word), regAt off ≠ .cmd → regAt off ≠ .ctrl →
    (s.memWrite off w).memWrite off w = s.memWrite off w

/-! ## Reset (70_reset_and_hazards.md, 10_state.md R42) -/

/-- R42, R181, R182: a hard reset, also one that cuts an access short, and a soft reset both take the whole block to its reset
state, and these are its values; a pending command is discarded. Only the model's own host side (log entry 19) differs between the two. -/
def Obligations.ResetState : Prop :=
  (∀ s : State, configLegal s.config = true →
    ((∃ cut, nextTurn s = .hardReset cut) ∨ ∃ w, nextTurn s = .host (.write 0x00C 4 w) ∧ w.getLsbD 0 = true) →
    ∃ h : HostSide, step s = .next ((State.resetWith s.config).withHost h)) ∧
  ∀ c : Config, configLegal c = true →
    let s := State.resetWith c
    (∀ i, s.readV i = { len := 0#4, data := 0#10 }) ∧
    (∀ i, (s.readM i).height = 0#4 ∧ (s.readM i).width = 0#4 ∧ ∀ r : Fin 10, (s.readM i).rows[r] = 0#10) ∧
    (∀ i, (s.readS i).len = 0#4 ∧ ∀ k : Fin 10, (s.readS i).samples[k] = 0#32) ∧
    (c.gReset = none →
      (∀ r : Fin 6, s.g[r] = 0#10) ∧ (∀ e : Fin 64, s.cb[e] = { cw := 0#10, src := 0#6 }) ∧ s.dmin = 0#4 ∧
      s.cfg = false) ∧
    (∀ G, c.gReset = some G → s.g = G ∧ CodebookOf G s.cb s.dmin ∧ s.cfg = true) ∧
    s.res = 0#32 ∧ s.idx = 0#6 ∧ s.errInfo = 0#32 ∧ s.cmdLast = 0#32 ∧ s.pend = none ∧
    s.err = false ∧ s.ovr = false ∧ s.errCode = 0#4 ∧ s.memRead 0x000 = 0x4C430A06#32

/-- R158, R195: a soft reset while a command is pending leaves the reset state of the block, whether it is ordered before the
command's step or after it. -/
def Obligations.SoftResetDiscardsOrClears : Prop :=
  ∀ (s : State) (rest : List Turn) (w : Word), configLegal s.config = true → w.getLsbD 0 = true →
    ∃ h k : HostSide,
      Host.Core.run Sys2Proof.core 2
        (s.withHost { s.host with agenda := .host (.write 0x00C 4 w) :: .sequencer :: rest }) =
          .next ((State.resetWith s.config).withHost h) ∧
      Host.Core.run Sys2Proof.core 2
        (s.withHost { s.host with agenda := .sequencer :: .host (.write 0x00C 4 w) :: rest }) =
          .next ((State.resetWith s.config).withHost k)

/-! ## Invariants -/

/-- The invariants of the block (R117, R34, R27, R30, R25, R37, R151, R154, R39) are kept by every step, from every state. Its last
clause is about the model's own wait field (log entry 6). -/
def Obligations.BlockInvariantsKept : Prop :=
  ∀ s t : State, BlockInv s → step s = .next t → BlockInv t

/-- They hold after reset, for every legal configuration. -/
def Obligations.BlockInvariantsAtReset : Prop :=
  ∀ c : Config, configLegal c = true → BlockInv (State.resetWith c)

/-- R117: while CFG = 1 the codebook and DMIN are those of G, after every step from a state where they are; and only a GLOAD
that succeeds and a reset change G, CB, DMIN or CFG. -/
def Obligations.OnlyGloadAndResetChangeTheCode : Prop :=
  ∀ s t : State, CodebookInv s → step s = .next t →
    CodebookInv t ∧
    ((t.g = s.g ∧ t.cb = s.cb ∧ t.dmin = s.dmin ∧ t.cfg = s.cfg) ∨
      (nextTurn s = .sequencer ∧ t.cfg = true ∧ ∃ w a, s.pend = some w ∧ decode w = .ok (.gload a)) ∨
      (∃ cut, nextTurn s = .hardReset cut) ∨
      ∃ w, nextTurn s = .host (.write 0x00C 4 w) ∧ w.getLsbD 0 = true)

/-- R40: no step changes the configuration. That SW and G_RESET stand in State is the model's choice (log entry 2). -/
def Obligations.ConfigurationIsFixed : Prop :=
  ∀ s t : State, step s = .next t → t.config = s.config

/-- R136: the STATUS read that ends the host's wait is the one that returns BUSY = 0, and it leaves nothing pending; no other turn
ends the wait; and so a run ends with nothing pending. The wait and the reply are the model's own fields (log entries 5
and 6), and that a reset does not end the wait is its choice (log entry 19). -/
def Obligations.WaitAndRunEndWithNothingPending : Prop :=
  (∀ s : State, BlockInv s → configLegal s.config = true → nextTurn s = .host (.read 0x008 4) →
    ∃ (t : State) (w : Word), step s = .next t ∧ t.host.reply = some (.read w false) ∧
      (t.host.awaiting = false → w.getLsbD 0 = false ∧ t.pend = none) ∧
      (w.getLsbD 0 = false → t.host.awaiting = false)) ∧
  (∀ s t : State, step s = .next t → s.host.awaiting = true → nextTurn s ≠ .host (.read 0x008 4) →
    t.host.awaiting = true) ∧
  ∀ (s t : State) (n : Nat), BlockInv s → RunEnds s n t → t.pend = none

/-! ## Races and the hazard rule -/

/-- R191, R63: while a command is pending, a host access that keeps the hazard rule gives the same state and the same reply
whether it is ordered before the command's step or after it, also when the pending word is no instruction and its step is a
fault. Which accesses keep the rule is `hazardFreeWord` (log entry 13). -/
def Obligations.HazardFreeAccessCommutes : Prop :=
  ∀ (s : State) (rest : List Turn) (w : Word) (a : Access),
    configLegal s.config = true → s.pend = some w → hazardFreeWord w a = true →
    ∃ t : State,
      Host.Core.run Sys2Proof.core 2
        (s.withHost { s.host with agenda := .sequencer :: .host a :: rest }) = .next t ∧
      Host.Core.run Sys2Proof.core 2
        (s.withHost { s.host with agenda := .host a :: .sequencer :: rest }) = .next t

/-! ## Properties of the code (R104, R111, R116, R125, R88) -/

/-- R104: the laws of the three linear-algebra functions, on elements: the vector-matrix product is row 0 of a matrix product,
the transpose is an involution and reverses products, the product is linear, takes the zero vector to the zero vector, and takes
a unit vector to a row. -/
def Obligations.LinearAlgebraLaws : Prop :=
  ∀ (h k : Nat) (u v : Bits) (A B : BitMatrix),
    (∀ i, vm h v A i = mm h (fun _ => v) A 0 i) ∧
    tr (tr A) = A ∧
    tr (mm k A B) = mm k (tr B) (tr A) ∧
    (∀ i, vm h (fun j => u j ^^ v j) A i = (vm h u A i ^^ vm h v A i)) ∧
    (∀ i, vm h (fun _ => false) A i = false) ∧
    ∀ r < h, ∀ i, vm h (fun j => decide (j = r)) A i = A r i

/-- R111: position `x` of the enumeration of length `n` holds the vector whose element `j` is bit `n-1-j` of `x`; each vector of
length `n` stands at exactly one position; the two extensions of the vector at `y` by a trailing 0 and a trailing 1 stand at
`2y` and `2y + 1`; and the packed image is `x` with its `n` low bits reversed. -/
def Obligations.EnumerationOrder : Prop :=
  (∀ (n x j : Nat), j < n → enumVec n x j = x.testBit (n - 1 - j)) ∧
  (∀ (n : Nat) (f : Bits), ∃ x < 2 ^ n, (∀ j < n, enumVec n x j = f j) ∧
    ∀ y < 2 ^ n, (∀ j < n, enumVec n y j = f j) → y = x) ∧
  (∀ (n y : Nat) (b : Bool), y < 2 ^ n →
    (∀ j < n, enumVec (n + 1) (2 * y + b.toNat) j = enumVec n y j) ∧ enumVec (n + 1) (2 * y + b.toNat) n = b) ∧
  (∀ (e j : Nat), srcVec e j = enumVec 6 e j) ∧
  ∀ (n x : Nat), n ≤ 10 → ∀ j < n, (pack n (enumVec n x)).getLsbD j = x.testBit (n - 1 - j)

/-- R115, R116, R125: encoding the source vector of an entry gives its codeword; looking that codeword up gives the source vector
and the entry back; decoding it gives it back with distance 0 and the entry. -/
def Obligations.EncodeThenLookUpRoundTrip : Prop :=
  ∀ (s : State) (d a : VIdx) (e : Nat), BlockInv s → s.cfg = true → e < 64 →
    s.readV a = { len := 6#4, data := (srcAt s.cb e).setWidth 10 } →
    ∃ t u v : State, exec (.enc d a) s = .next t ∧ t.readV d = { len := 10#4, data := cwAt s.cb e } ∧
      exec (.cblook d d) t = .next u ∧ u.readV d = s.readV a ∧ u.idx.toNat = e ∧
      exec (.dech d d) t = .next v ∧ v.readV d = t.readV d ∧ v.idx.toNat = e ∧ v.res = 0#32

/-- R125, correction radius, and with `hd = 0` the round trip: a received vector within half the minimum distance of a codeword
decodes to it. -/
def Obligations.HardDecoderCorrectsWithinRadius : Prop :=
  ∀ (s : State) (d a : VIdx) (e : Nat), BlockInv s → s.cfg = true → e < 64 → (s.readV a).len = 10#4 →
    2 * distance 10 (s.readV a).data.getLsbD (cwAt s.cb e).getLsbD < s.dmin.toNat →
    ∃ t : State, exec (.dech d a) s = .next t ∧ t.idx.toNat = e ∧
      t.readV d = { len := 10#4, data := cwAt s.cb e } ∧
      t.res.toNat = distance 10 (s.readV a).data.getLsbD (cwAt s.cb e).getLsbD

/-- R125, soft round trip: the noiseless BPSK image of a codeword at any positive amplitude decodes to it. -/
def Obligations.SoftDecoderRoundTrip : Prop :=
  ∀ (s : State) (d : VIdx) (a : SIdx) (e : Nat) (amp : Int), configLegal s.config = true → BlockInv s → s.cfg = true →
    e < 64 → 0 < amp → (s.readS a).len = 10#4 →
    (∀ k < 10, (s.readS a).value s.config k = if (cwAt s.cb e).getLsbD k = true then amp else -amp) →
    ∃ t : State, exec (.decs d a) s = .next t ∧ t.idx.toNat = e ∧
      t.readV d = { len := 10#4, data := cwAt s.cb e } ∧ t.res.toInt = 10 * amp

/-- R88 VSET: the expansion loads the vector it names. -/
def Obligations.VsetLoadsItsBits : Prop :=
  ∀ (s : State) (d : VIdx) (bits : List Bool), 1 ≤ bits.length → bits.length ≤ 10 →
    ∃ (i : Instr) (t : State), Pseudo.expand (.vset d bits) = [i] ∧ exec i s = .next t ∧
      (t.readV d).len.toNat = bits.length ∧ ∀ j, (t.readV d).data.getLsbD j = bits[j]?.getD false

/-- R88 ENCSRC: its two commands load the codeword of the entry it names. -/
def Obligations.EncsrcLoadsTheCodeword : Prop :=
  ∀ (s : State) (d : VIdx) (e : Fin 64), BlockInv s → s.cfg = true →
    ∃ (i j : Instr) (t u : State), Pseudo.expand (.encsrc d e) = [i, j] ∧
      exec i s = .next t ∧ exec j t = .next u ∧ u.readV d = { len := 10#4, data := cwAt s.cb e.val }

/-- R88 DECODE and SDECODE: while CFG = 1 a received vector or a soft register of length 10 always decodes to a source vector;
the lookup never faults. -/
def Obligations.DecodeAlwaysFindsASourceVector : Prop :=
  ∀ (s : State) (d : VIdx), BlockInv s → s.cfg = true →
    (∀ a : VIdx, (s.readV a).len = 10#4 →
      ∃ (i j : Instr) (t u : State), Pseudo.expand (.decode d a) = [i, j] ∧
        exec i s = .next t ∧ exec j t = .next u ∧ u.idx = t.idx ∧ u.res = t.res ∧ u.err = s.err ∧
        u.readV d = { len := 6#4, data := (srcAt s.cb t.idx.toNat).setWidth 10 }) ∧
    ∀ a : SIdx, (s.readS a).len = 10#4 →
      ∃ (i j : Instr) (t u : State), Pseudo.expand (.sdecode d a) = [i, j] ∧
        exec i s = .next t ∧ exec j t = .next u ∧ u.idx = t.idx ∧ u.res = t.res ∧ u.err = s.err ∧
        u.readV d = { len := 6#4, data := (srcAt s.cb t.idx.toNat).setWidth 10 }

/-- R31: the soft decoder's choice depends only on the order of the scores; samples scaled by a positive factor decode to the
same entry, with the score scaled. -/
def Obligations.SoftDecisionIgnoresScale : Prop :=
  ∀ (s s' : State) (d : VIdx) (a : SIdx) (k : Int), configLegal s.config = true → configLegal s'.config = true →
    s.cfg = true → s'.cfg = true → s'.cb = s.cb → (s.readS a).len = 10#4 → (s'.readS a).len = 10#4 → 0 < k →
    (∀ i < 10, (s'.readS a).value s'.config i = k * (s.readS a).value s.config i) →
    ∃ t t' : State, exec (.decs d a) s = .next t ∧ exec (.decs d a) s' = .next t' ∧
      t'.idx = t.idx ∧ t'.readV d = t.readV d ∧ t'.res.toInt = k * t.res.toInt

/-! ## Register images and the OVR flag -/

/-- R27, R28, R30, R32, R33, R53, R58: what the operand registers, G and the codebook read through the window, in terms of the
elements and dimensions the commands read and write: element `j` stands at bit `j`, source element `j` of an entry at bit
`16 + j`, every bit the rules reserve reads 0, and a sample reads as its signed value. -/
def Obligations.OperandRegisterReads : Prop :=
  ∀ (s : State) (k : Nat), k < 32 →
    (∀ i : VIdx, (s.memRead (0x040 + 4 * i.val)).getLsbD k =
      if k < 10 then (s.readV i).bits k
      else if 16 ≤ k ∧ k < 20 then (s.readV i).len.getLsbD (k - 16)
      else false) ∧
    (∀ (m : MIdx) (r : Fin 10), (s.memRead (0x100 + 0x40 * m.val + 4 * r.val)).getLsbD k =
      (decide (k < 10) && (s.readM m).bits r.val k)) ∧
    (∀ m : MIdx, (s.memRead (0x100 + 0x40 * m.val + 0x28)).getLsbD k =
      if k < 4 then (s.readM m).height.getLsbD k
      else if 8 ≤ k ∧ k < 12 then (s.readM m).width.getLsbD (k - 8)
      else false) ∧
    (∀ (i : SIdx) (j : Fin 10), configLegal s.config = true →
      (s.memRead (0x200 + 0x40 * i.val + 4 * j.val)).toInt = (s.readS i).value s.config j.val) ∧
    (∀ i : SIdx, (s.memRead (0x200 + 0x40 * i.val + 0x28)).toNat = (s.readS i).len.toNat) ∧
    (∀ r : Fin 6, (s.memRead (0x300 + 4 * r.val)).getLsbD k = (decide (k < 10) && genBits s.g r.val k)) ∧
    ∀ e : Fin 64, (s.memRead (0x400 + 4 * e.val)).getLsbD k =
      if k < 10 then (cwAt s.cb e.val).getLsbD k
      else if 16 ≤ k ∧ k < 22 then (srcAt s.cb e.val).getLsbD (k - 16)
      else false

/-- R25, R26, R56: OVR is sticky, no step but a hard reset and a CTRL write of SRST or CLRERR clears it; and it is set only by a CMD
write while a command is pending. -/
def Obligations.OverrunIsSticky : Prop :=
  ∀ s t : State, step s = .next t →
    (s.ovr = true → (∀ cut, nextTurn s ≠ .hardReset cut) →
      (∀ w, nextTurn s = .host (.write 0x00C 4 w) → w.getLsbD 0 = false ∧ w.getLsbD 1 = false) → t.ovr = true) ∧
    (s.ovr = false → t.ovr = true → s.pend ≠ none ∧ ∃ w, nextTurn s = .host (.write 0x004 4 w))
end

