-- ==== Sys2Proof/Laws/Gf2.lean ====
section
/-! SUPPORT. Laws/Gf2.lean: what the shared pure functions answer, in the source's own terms (sums modulo 2, counts of differing
positions, sums of products), and the codebook they build. -/

namespace Sys2Proof.Machine

theorem xorSum_congr {n : Nat} {f g : Bits} (h : ∀ j < n, f j = g j) : xorSum n f = xorSum n g := by
  induction n with
  | zero => rfl
  | succ n ih => simp [xorSum, ih fun j hj => h j (by omega), h n (by omega)]

/-- The exclusive-or of R7 is the sum modulo 2. -/
theorem xorSum_eq_modTwoSum (n : Nat) (f : Bits) : xorSum n f = modTwoSum n f := by
  induction n with
  | zero => simp [xorSum, modTwoSum]
  | succ n ih =>
    simp only [xorSum, ih, modTwoSum, Finset.sum_range_succ]
    generalize (∑ j ∈ Finset.range n, if f j = true then 1 else 0) = m
    cases f n
    · simp
    · simp only [Bool.xor_true, if_true, ← decide_not, decide_eq_decide]
      omega

theorem xorSum_xor (n : Nat) (f g : Bits) :
    xorSum n (fun j => f j ^^ g j) = (xorSum n f ^^ xorSum n g) := by
  induction n with
  | zero => rfl
  | succ n ih =>
    simp only [xorSum, ih]
    cases xorSum n f <;> cases xorSum n g <;> cases f n <;> cases g n <;> rfl

theorem xorSum_false (n : Nat) : xorSum n (fun _ => false) = false := by
  induction n with
  | zero => rfl
  | succ n ih => simp [xorSum, ih]

/-- A sum with one possibly true term is that term. -/
theorem xorSum_single {n r : Nat} (hr : r < n) (f : Bits) :
    xorSum n (fun j => decide (j = r) && f j) = f r := by
  induction n with
  | zero => omega
  | succ n ih =>
    simp only [xorSum]
    rcases Nat.lt_or_ge r n with h | h
    · rw [ih h]; simp [show n ≠ r by omega]
    · obtain rfl : r = n := by omega
      rw [xorSum_congr (g := fun _ => false), xorSum_false]
      · simp
      · intro j hj; simp [show j ≠ r by omega]

theorem countTrue_eq_card (n : Nat) (f : Bits) :
    countTrue n f = ((Finset.range n).filter fun i => f i = true).card := by
  induction n with
  | zero => rfl
  | succ n ih =>
    rw [countTrue, ih, Finset.range_add_one, Finset.filter_insert]
    cases f n <;> simp

theorem hd_eq_distance (n : Nat) (a b : Bits) : hd n a b = distance n a b := by
  simp [hd, countTrue_eq_card, distance]

theorem countTrue_le (n : Nat) (f : Bits) : countTrue n f ≤ n := by
  induction n with
  | zero => simp [countTrue]
  | succ n ih => simp only [countTrue]; have := Bool.toNat_le (f n); omega

theorem distance_le (n : Nat) (a b : Bits) : distance n a b ≤ n := by
  rw [← hd_eq_distance]; exact countTrue_le n _

theorem intSum_eq_sum (n : Nat) (f : Nat → Int) : intSum n f = ∑ i ∈ Finset.range n, f i := by
  induction n with
  | zero => rfl
  | succ n ih => rw [intSum, ih, Finset.sum_range_succ]

theorem corr_eq_correlation (n : Nat) (x : Nat → Int) (c : Bits) : corr n x c = correlation n x c := by
  simp only [corr, intSum_eq_sum, correlation]
  refine Finset.sum_congr rfl fun i _ => ?_
  cases c i <;> simp

@[simp] theorem pack_getLsbD (n : Nat) (f : Bits) (j : Nat) :
    (pack n f).getLsbD j = (decide (j < n) && decide (j < 10) && f j) := by
  induction n with
  | zero => simp [pack]
  | succ n ih =>
    simp only [pack, BitVec.getLsbD_or, ih, BitVec.getLsbD_shiftLeft, BitVec.getLsbD_setWidth, BitVec.getLsbD_ofBool]
    by_cases h10 : j < 10 <;> by_cases h1 : j < n <;> by_cases h2 : j = n
    all_goals first
      | omega
      | (subst h2; simp [h10])
      | (have : ¬ j < n + 1 := by omega
         simp [h10, h1, this]; omega)
      | (have : j < n + 1 := by omega
         simp [h10, h1, this])
      | simp [h10, h1]

@[simp] theorem pack_getElem (n : Nat) (f : Bits) (j : Nat) (h : j < 10) :
    (pack n f)[j] = (decide (j < n) && f j) := by
  rw [← BitVec.getLsbD_eq_getElem, pack_getLsbD]
  simp [h]

theorem pack_congr {n : Nat} {f g : Bits} (h : ∀ j < n, j < 10 → f j = g j) : pack n f = pack n g := by
  apply BitVec.eq_of_getLsbD_eq
  intro j hj
  simp only [pack_getLsbD]
  by_cases hn : j < n
  · simp [hn, hj, h j hn hj]
  · simp [hn]

/-- Packing the ten elements of a packed vector gives it back. -/
@[simp] theorem pack_ten_getLsbD (w : Packed) : pack 10 w.getLsbD = w := by
  apply BitVec.eq_of_getLsbD_eq
  intro j hj
  rw [pack_getLsbD]
  simp [hj]

theorem minOver_le {n e : Nat} (f : Nat → Nat) (h : e ≤ n) : minOver n f ≤ f e := by
  induction n with
  | zero => obtain rfl : e = 0 := by omega
            exact Nat.le_refl _
  | succ n ih =>
    simp only [minOver]
    rcases Nat.lt_or_ge n e with h' | h'
    · obtain rfl : e = n + 1 := by omega
      omega
    · have := ih h'; omega

theorem minOver_attained (n : Nat) (f : Nat → Nat) : ∃ e ≤ n, minOver n f = f e := by
  induction n with
  | zero => exact ⟨0, Nat.le_refl _, rfl⟩
  | succ n ih =>
    obtain ⟨e, he, h⟩ := ih
    simp only [minOver]
    rcases Nat.le_total (minOver n f) (f (n + 1)) with hle | hle
    · exact ⟨e, by omega, by omega⟩
    · exact ⟨n + 1, Nat.le_refl _, by omega⟩

/-- The hard decoder's search keeps the first entry of least score (42_decoders.md R123). -/
theorem firstBest_min (f : Nat → Nat) (n : Nat) :
    let p := firstBest (fun x y : Nat => decide (x < y)) f n
    p.2 = f p.1 ∧ p.1 ≤ n ∧ (∀ k ≤ n, f p.1 ≤ f k) ∧ ∀ k < p.1, f p.1 < f k := by
  induction n with
  | zero =>
    refine ⟨rfl, Nat.le_refl _, fun k hk => ?_, fun k hk => absurd hk (Nat.not_lt_zero _)⟩
    obtain rfl : k = 0 := by omega
    exact Nat.le_refl _
  | succ n ih =>
    obtain ⟨h1, h2, h3, h4⟩ := ih
    simp only [firstBest]
    by_cases hb : f (n + 1) < (firstBest (fun x y : Nat => decide (x < y)) f n).2
    · simp only [hb, decide_true, if_true, true_and, Nat.le_refl]
      rw [h1] at hb
      refine ⟨fun k hk => ?_, fun k hk => ?_⟩
      · rcases Nat.lt_or_ge n k with h | h
        · obtain rfl : k = n + 1 := by omega
          exact Nat.le_refl _
        · exact Nat.le_of_lt (Nat.lt_of_lt_of_le hb (h3 k h))
      · exact Nat.lt_of_lt_of_le hb (h3 k (by omega))
    · simp only [hb, decide_false, if_false, Bool.false_eq_true]
      refine ⟨h1, by omega, fun k hk => ?_, h4⟩
      rcases Nat.lt_or_ge n k with h | h
      · obtain rfl : k = n + 1 := by omega
        omega
      · exact h3 k h

/-- The soft decoder's search keeps the first entry of greatest score (42_decoders.md R124). -/
theorem firstBest_max (f : Nat → Int) (n : Nat) :
    let p := firstBest (fun x y : Int => decide (x > y)) f n
    p.2 = f p.1 ∧ p.1 ≤ n ∧ (∀ k ≤ n, f k ≤ f p.1) ∧ ∀ k < p.1, f k < f p.1 := by
  induction n with
  | zero =>
    refine ⟨rfl, Nat.le_refl _, fun k hk => ?_, fun k hk => absurd hk (Nat.not_lt_zero _)⟩
    obtain rfl : k = 0 := by omega
    exact Int.le_refl _
  | succ n ih =>
    obtain ⟨h1, h2, h3, h4⟩ := ih
    simp only [firstBest]
    by_cases hb : f (n + 1) > (firstBest (fun x y : Int => decide (x > y)) f n).2
    · simp only [hb, decide_true, if_true, true_and, Nat.le_refl]
      rw [h1] at hb
      refine ⟨fun k hk => ?_, fun k hk => ?_⟩
      · rcases Nat.lt_or_ge n k with h | h
        · obtain rfl : k = n + 1 := by omega
          exact Int.le_refl _
        · have := h3 k h
          omega
      · have := h3 k (by omega)
        omega
    · simp only [hb, decide_false, if_false, Bool.false_eq_true]
      refine ⟨h1, by omega, fun k hk => ?_, h4⟩
      rcases Nat.lt_or_ge n k with h | h
      · obtain rfl : k = n + 1 := by omega
        omega
      · exact h3 k h

/-- The lookup answers the least entry of the range that satisfies the predicate. -/
theorem findFrom_some {p : Nat → Bool} {e n k : Nat} (h : findFrom p e n = some k) :
    e ≤ k ∧ k < e + n ∧ p k = true ∧ ∀ j, e ≤ j → j < k → p j = false := by
  induction n generalizing e with
  | zero => simp [findFrom] at h
  | succ n ih =>
    simp only [findFrom] at h
    split at h
    · rename_i hp
      obtain rfl : e = k := by simpa using h
      exact ⟨Nat.le_refl _, by omega, hp, fun j h1 h2 => by omega⟩
    · rename_i hp
      obtain ⟨h1, h2, h3, h4⟩ := ih h
      refine ⟨by omega, by omega, h3, fun j hj hk => ?_⟩
      rcases Nat.lt_or_ge e j with hlt | hge
      · exact h4 j hlt hk
      · obtain rfl : j = e := by omega
        simpa using hp

/-- The lookup fails exactly when no entry of the range satisfies the predicate. -/
theorem findFrom_none {p : Nat → Bool} {e n : Nat} :
    findFrom p e n = none ↔ ∀ k, e ≤ k → k < e + n → p k = false := by
  induction n generalizing e with
  | zero => simp [findFrom]; omega
  | succ n ih =>
    simp only [findFrom]
    split
    · rename_i hp
      simp only [reduceCtorEq, false_iff, not_forall]
      exact ⟨e, Nat.le_refl _, by omega, by simp [hp]⟩
    · rename_i hp
      rw [ih]
      refine ⟨fun h k h1 h2 => ?_, fun h k h1 h2 => h k (by omega) (by omega)⟩
      rcases Nat.lt_or_ge e k with hlt | hge
      · exact h k hlt (by omega)
      · obtain rfl : k = e := by omega
        simpa using hp

/-! The codebook (41_code_definition.md R113). -/

theorem cwAt_buildCodebook (A : BitMatrix) {e : Nat} (h : e < 64) : cwAt (buildCodebook A) e = codewordOf A e := by
  simp [cwAt, buildCodebook, h]

theorem srcAt_buildCodebook (A : BitMatrix) {e : Nat} (h : e < 64) : srcAt (buildCodebook A) e = packedSrc e := by
  simp [srcAt, buildCodebook, h]

/-- A codebook depends only on the 6 x 10 elements of the matrix. -/
theorem buildCodebook_congr {A B : BitMatrix} (h : ∀ r < 6, ∀ c < 10, A r c = B r c) :
    buildCodebook A = buildCodebook B := by
  unfold buildCodebook
  congr 1
  funext e
  simp only [codewordOf, CbEntry.mk.injEq, and_true]
  exact pack_congr fun i hi _ => xorSum_congr fun j hj => by rw [h j hj i hi]

theorem codewordOf_getLsbD (A : BitMatrix) (e i : Nat) :
    (codewordOf A e).getLsbD i =
      (decide (i < 10) && modTwoSum 6 fun j => e.testBit (5 - j) && A j i) := by
  rw [codewordOf, pack_getLsbD, vm, xorSum_eq_modTwoSum]
  by_cases h : i < 10 <;> simp [h, srcVec, enumVec]

theorem packedSrc_getLsbD (e : Nat) {j : Nat} (h : j < 6) : (packedSrc e).getLsbD j = e.testBit (5 - j) := by
  simp [packedSrc, h, srcVec, enumVec]
  omega

theorem genBits_ofRows (A : BitMatrix) {r c : Nat} (hr : r < 6) (hc : c < 10) :
    genBits (Vector.ofFn fun r : Fin 6 => pack codeLen (A r.val)) r c = A r c := by
  simp [genBits, hr, hc]

theorem injective_iff (cb : Codebook) :
    injective cb = true ↔ ∀ f < 64, ∀ e < f, cwAt cb e ≠ cwAt cb f := by
  simp [injective]

/-- GLOAD's check (41_code_definition.md R113) in the statements' words. -/
theorem injective_build_iff (A : BitMatrix) : injective (buildCodebook A) = true ↔ InjectiveCode A := by
  rw [injective_iff]
  have key : ∀ e f, e < f → f < 64 → (cwAt (buildCodebook A) e ≠ cwAt (buildCodebook A) f ↔
      ∃ i < 10, modTwoSum 6 (fun j => e.testBit (5 - j) && A j i) ≠
        modTwoSum 6 (fun j => f.testBit (5 - j) && A j i)) := by
    intro e f hef hf
    rw [cwAt_buildCodebook _ (by omega), cwAt_buildCodebook _ hf, ← not_iff_not]
    push Not
    constructor
    · intro h i hi
      have := congrArg (fun w => w.getLsbD i) h
      simp only [codewordOf_getLsbD, hi, decide_true, Bool.true_and] at this
      exact this
    · intro h
      apply BitVec.eq_of_getLsbD_eq
      intro i hi
      simp only [codewordOf_getLsbD, h i hi]
  exact ⟨fun h e f hef hf => (key e f hef hf).1 (h f hf e hef), fun h f hf e hef => (key e f hef hf).2 (h e f hef hf)⟩

theorem cwDist_eq_distance (a b : Packed) : cwDist a b = distance 10 a.getLsbD b.getLsbD :=
  hd_eq_distance 10 _ _

/-- DMIN is at most the distance of any two entries, and the distance of some two. -/
theorem minDistance_spec (cb : Codebook) :
    (∀ e f, e < f → f < 64 → minDistance cb ≤ cwDist (cwAt cb e) (cwAt cb f)) ∧
      ∃ e f, e < f ∧ f < 64 ∧ minDistance cb = cwDist (cwAt cb e) (cwAt cb f) := by
  constructor
  · intro e f hef hf
    obtain ⟨g, rfl⟩ : ∃ g, f = g + 1 := ⟨f - 1, by omega⟩
    exact Nat.le_trans (minOver_le _ (show g ≤ 62 by omega)) (minOver_le _ (show e ≤ g by omega))
  · obtain ⟨g, hg, h1⟩ := minOver_attained 62 fun f => minOver f fun e => cwDist (cwAt cb e) (cwAt cb (f + 1))
    obtain ⟨e, he, h2⟩ := minOver_attained g fun e => cwDist (cwAt cb e) (cwAt cb (g + 1))
    exact ⟨e, g + 1, by omega, by omega, h1.trans h2⟩

theorem minDistance_le (cb : Codebook) : minDistance cb ≤ 10 := by
  obtain ⟨e, f, -, -, h⟩ := (minDistance_spec cb).2
  rw [h, cwDist_eq_distance]
  exact distance_le 10 _ _

/-- The codebook that GLOAD builds from an injective matrix, with its minimum distance, is the one R117 describes. -/
theorem codebookOf_build {g : GenRows} (h : injective (buildCodebook (genBits g)) = true) :
    CodebookOf g (buildCodebook (genBits g)) (BitVec.ofNat 4 (minDistance (buildCodebook (genBits g)))) := by
  have hd : (BitVec.ofNat 4 (minDistance (buildCodebook (genBits g)))).toNat = minDistance (buildCodebook (genBits g)) := by
    have := minDistance_le (buildCodebook (genBits g))
    simp only [BitVec.toNat_ofNat]
    omega
  refine ⟨fun e he j hj => ?_, fun e he i hi => ?_, fun e f hef hf => (injective_iff _).1 h f hf e hef, ?_, ?_⟩
  · rw [srcAt_buildCodebook _ he, packedSrc_getLsbD _ hj]
  · rw [cwAt_buildCodebook _ he, codewordOf_getLsbD]
    simp [hi]
  · intro e f hef hf
    rw [hd, ← cwDist_eq_distance]
    exact (minDistance_spec _).1 e f hef hf
  · rw [hd]
    obtain ⟨e, f, hef, hf, hm⟩ := (minDistance_spec (buildCodebook (genBits g))).2
    exact ⟨e, f, hef, hf, by rw [hm, cwDist_eq_distance]⟩

/-! Distances and scores of codewords (42_decoders.md R125). -/

theorem distance_comm (n : Nat) (a b : Bits) : distance n a b = distance n b a := by
  simp only [distance, ne_comm]

theorem distance_self (n : Nat) (a : Bits) : distance n a a = 0 := by simp [distance]

theorem distance_triangle (n : Nat) (a b c : Bits) : distance n a c ≤ distance n a b + distance n b c := by
  simp only [distance]
  refine le_trans (Finset.card_le_card (t := _ ∪ _) ?_) (Finset.card_union_le _ _)
  intro i
  simp only [Finset.mem_filter, Finset.mem_union]
  rintro ⟨hi, h⟩
  by_cases e : a i = b i
  · exact .inr ⟨hi, e ▸ h⟩
  · exact .inl ⟨hi, e⟩

theorem distance_pos {a b : Packed} (h : a ≠ b) : 0 < distance 10 a.getLsbD b.getLsbD := by
  rw [Nat.pos_iff_ne_zero]
  intro h0
  apply h
  apply BitVec.eq_of_getLsbD_eq
  intro i hi
  simp only [distance, Finset.card_eq_zero, Finset.filter_eq_empty_iff, Finset.mem_range, ne_eq, not_not] at h0
  exact h0 hi

/-- The score of the noiseless image of `e` at amplitude `amp` against `c`. -/
theorem correlation_bpsk {x : Nat → Int} {e : Bits} {amp : Int} (n : Nat)
    (h : ∀ k < n, x k = if e k = true then amp else -amp) (c : Bits) :
    correlation n x c = amp * (n - 2 * distance n c e) := by
  rw [← corr_eq_correlation, ← hd_eq_distance]
  induction n with
  | zero => simp [corr, intSum, hd, countTrue]
  | succ n ih =>
    have := ih fun k hk => h k (by omega)
    simp only [corr, hd, intSum, countTrue] at this ⊢
    rw [this, h n (by omega)]
    push_cast
    cases c n <;> cases e n <;> simp <;> ring

/-- A source vector packed into a vector register. -/
theorem pack_six (w : BitVec 6) : pack 6 w.getLsbD = w.setWidth 10 := by
  apply BitVec.eq_of_getLsbD_eq
  intro j hj
  rw [pack_getLsbD, BitVec.getLsbD_setWidth]
  by_cases h6 : j < 6
  · simp [h6, hj]
  · rw [BitVec.getLsbD_of_ge w j (by omega)]; simp [h6]

/-- What GLOAD installs is the code of its matrix. -/
theorem codebookOf_install {A : BitMatrix} (h : injective (buildCodebook A) = true) :
    CodebookOf (Vector.ofFn fun r : Fin 6 => pack codeLen (A r.val)) (buildCodebook A)
      (BitVec.ofNat 4 (minDistance (buildCodebook A))) := by
  have e : buildCodebook (genBits (Vector.ofFn fun r : Fin 6 => pack codeLen (A r.val))) = buildCodebook A :=
    buildCodebook_congr fun r hr c hc => genBits_ofRows A hr hc
  have := codebookOf_build (g := Vector.ofFn fun r : Fin 6 => pack codeLen (A r.val)) (by rw [e]; exact h)
  rwa [e] at this

/-- The configurations the spec allows, in the statements' words (10_state.md R31, 70_reset_and_hazards.md R182). -/
theorem configLegal_iff {c : Config} :
    configLegal c = true ↔ 2 ≤ c.sw ∧ c.sw ≤ 27 ∧ ∀ G, c.gReset = some G → InjectiveCode (genBits G) := by
  unfold configLegal
  cases h : c.gReset with
  | none => simp
  | some G =>
    simp only [Bool.and_eq_true, decide_eq_true_eq, injective_build_iff, Option.some.injEq, and_assoc]
    refine and_congr_right fun _ => and_congr_right fun _ => ⟨fun h G' e => e ▸ h, fun h => h G rfl⟩

/-- Reset with a legal matrix leaves its code (70_reset_and_hazards.md R182). -/
theorem codebookOf_reset {c : Config} {G : GenRows} (h : c.gReset = some G) (hc : configLegal c = true) :
    CodebookOf G (State.resetWith c).cb (State.resetWith c).dmin := by
  have hG := (configLegal_iff.1 hc).2.2 G h
  simp only [State.resetWith, h]
  exact codebookOf_build ((injective_build_iff _).2 hG)

/-- Two entries of a configured block hold different codewords (41_code_definition.md R117). -/
theorem cwAt_ne {s : State} (hi : CodebookInv s) (hc : s.cfg = true) {e f : Nat} (he : e < 64) (hf : f < 64) (h : e ≠ f) :
    cwAt s.cb e ≠ cwAt s.cb f := by
  rcases Nat.lt_or_gt_of_ne h with h | h
  · exact (hi hc).distinct _ _ h hf
  · exact fun h' => (hi hc).distinct _ _ h he h'.symm

end Sys2Proof.Machine
end

