-- ==== Sys2Proof/Laws/State.lean ====
section
/-! SUPPORT. Laws/State.lean: what each update of the state does to each field, one lemma per field per update. -/

namespace Sys2Proof.Machine

variable (s : State)

section
variable (d : VIdx) (n : BitVec 4) (f : Bits)
@[simp] theorem State.writeV_config : (s.writeV d n f).config = s.config := rfl
@[simp] theorem State.writeV_host : (s.writeV d n f).host = s.host := rfl
@[simp] theorem State.writeV_v : (s.writeV d n f).v = s.v.set d { len := n, data := pack n.toNat f } := rfl
@[simp] theorem State.writeV_m : (s.writeV d n f).m = s.m := rfl
@[simp] theorem State.writeV_soft : (s.writeV d n f).soft = s.soft := rfl
@[simp] theorem State.writeV_g : (s.writeV d n f).g = s.g := rfl
@[simp] theorem State.writeV_cb : (s.writeV d n f).cb = s.cb := rfl
@[simp] theorem State.writeV_dmin : (s.writeV d n f).dmin = s.dmin := rfl
@[simp] theorem State.writeV_res : (s.writeV d n f).res = s.res := rfl
@[simp] theorem State.writeV_idx : (s.writeV d n f).idx = s.idx := rfl
@[simp] theorem State.writeV_errInfo : (s.writeV d n f).errInfo = s.errInfo := rfl
@[simp] theorem State.writeV_cmdLast : (s.writeV d n f).cmdLast = s.cmdLast := rfl
@[simp] theorem State.writeV_pend : (s.writeV d n f).pend = s.pend := rfl
@[simp] theorem State.writeV_err : (s.writeV d n f).err = s.err := rfl
@[simp] theorem State.writeV_ovr : (s.writeV d n f).ovr = s.ovr := rfl
@[simp] theorem State.writeV_cfg : (s.writeV d n f).cfg = s.cfg := rfl
@[simp] theorem State.writeV_errCode : (s.writeV d n f).errCode = s.errCode := rfl
end

section
variable (d : MIdx) (h w : BitVec 4) (A : BitMatrix)
@[simp] theorem State.writeM_config : (s.writeM d h w A).config = s.config := rfl
@[simp] theorem State.writeM_host : (s.writeM d h w A).host = s.host := rfl
@[simp] theorem State.writeM_v : (s.writeM d h w A).v = s.v := rfl
@[simp] theorem State.writeM_m : (s.writeM d h w A).m = s.m.set d (MatReg.ofBits h w A) := rfl
@[simp] theorem State.writeM_soft : (s.writeM d h w A).soft = s.soft := rfl
@[simp] theorem State.writeM_g : (s.writeM d h w A).g = s.g := rfl
@[simp] theorem State.writeM_cb : (s.writeM d h w A).cb = s.cb := rfl
@[simp] theorem State.writeM_dmin : (s.writeM d h w A).dmin = s.dmin := rfl
@[simp] theorem State.writeM_res : (s.writeM d h w A).res = s.res := rfl
@[simp] theorem State.writeM_idx : (s.writeM d h w A).idx = s.idx := rfl
@[simp] theorem State.writeM_errInfo : (s.writeM d h w A).errInfo = s.errInfo := rfl
@[simp] theorem State.writeM_cmdLast : (s.writeM d h w A).cmdLast = s.cmdLast := rfl
@[simp] theorem State.writeM_pend : (s.writeM d h w A).pend = s.pend := rfl
@[simp] theorem State.writeM_err : (s.writeM d h w A).err = s.err := rfl
@[simp] theorem State.writeM_ovr : (s.writeM d h w A).ovr = s.ovr := rfl
@[simp] theorem State.writeM_cfg : (s.writeM d h w A).cfg = s.cfg := rfl
@[simp] theorem State.writeM_errCode : (s.writeM d h w A).errCode = s.errCode := rfl
end

section
variable (w : Word)
@[simp] theorem State.writeRes_config : (s.writeRes w).config = s.config := rfl
@[simp] theorem State.writeRes_host : (s.writeRes w).host = s.host := rfl
@[simp] theorem State.writeRes_v : (s.writeRes w).v = s.v := rfl
@[simp] theorem State.writeRes_m : (s.writeRes w).m = s.m := rfl
@[simp] theorem State.writeRes_soft : (s.writeRes w).soft = s.soft := rfl
@[simp] theorem State.writeRes_g : (s.writeRes w).g = s.g := rfl
@[simp] theorem State.writeRes_cb : (s.writeRes w).cb = s.cb := rfl
@[simp] theorem State.writeRes_dmin : (s.writeRes w).dmin = s.dmin := rfl
@[simp] theorem State.writeRes_res : (s.writeRes w).res = w := rfl
@[simp] theorem State.writeRes_idx : (s.writeRes w).idx = s.idx := rfl
@[simp] theorem State.writeRes_errInfo : (s.writeRes w).errInfo = s.errInfo := rfl
@[simp] theorem State.writeRes_cmdLast : (s.writeRes w).cmdLast = s.cmdLast := rfl
@[simp] theorem State.writeRes_pend : (s.writeRes w).pend = s.pend := rfl
@[simp] theorem State.writeRes_err : (s.writeRes w).err = s.err := rfl
@[simp] theorem State.writeRes_ovr : (s.writeRes w).ovr = s.ovr := rfl
@[simp] theorem State.writeRes_cfg : (s.writeRes w).cfg = s.cfg := rfl
@[simp] theorem State.writeRes_errCode : (s.writeRes w).errCode = s.errCode := rfl
end

section
variable (e : Nat)
@[simp] theorem State.writeIdx_config : (s.writeIdx e).config = s.config := rfl
@[simp] theorem State.writeIdx_host : (s.writeIdx e).host = s.host := rfl
@[simp] theorem State.writeIdx_v : (s.writeIdx e).v = s.v := rfl
@[simp] theorem State.writeIdx_m : (s.writeIdx e).m = s.m := rfl
@[simp] theorem State.writeIdx_soft : (s.writeIdx e).soft = s.soft := rfl
@[simp] theorem State.writeIdx_g : (s.writeIdx e).g = s.g := rfl
@[simp] theorem State.writeIdx_cb : (s.writeIdx e).cb = s.cb := rfl
@[simp] theorem State.writeIdx_dmin : (s.writeIdx e).dmin = s.dmin := rfl
@[simp] theorem State.writeIdx_res : (s.writeIdx e).res = s.res := rfl
@[simp] theorem State.writeIdx_idx : (s.writeIdx e).idx = BitVec.ofNat 6 e := rfl
@[simp] theorem State.writeIdx_errInfo : (s.writeIdx e).errInfo = s.errInfo := rfl
@[simp] theorem State.writeIdx_cmdLast : (s.writeIdx e).cmdLast = s.cmdLast := rfl
@[simp] theorem State.writeIdx_pend : (s.writeIdx e).pend = s.pend := rfl
@[simp] theorem State.writeIdx_err : (s.writeIdx e).err = s.err := rfl
@[simp] theorem State.writeIdx_ovr : (s.writeIdx e).ovr = s.ovr := rfl
@[simp] theorem State.writeIdx_cfg : (s.writeIdx e).cfg = s.cfg := rfl
@[simp] theorem State.writeIdx_errCode : (s.writeIdx e).errCode = s.errCode := rfl
end

section
variable (A : BitMatrix)
@[simp] theorem State.installCode_config : (s.installCode A).config = s.config := rfl
@[simp] theorem State.installCode_host : (s.installCode A).host = s.host := rfl
@[simp] theorem State.installCode_v : (s.installCode A).v = s.v := rfl
@[simp] theorem State.installCode_m : (s.installCode A).m = s.m := rfl
@[simp] theorem State.installCode_soft : (s.installCode A).soft = s.soft := rfl
@[simp] theorem State.installCode_g : (s.installCode A).g = Vector.ofFn fun r => pack codeLen (A r.val) := rfl
@[simp] theorem State.installCode_cb : (s.installCode A).cb = buildCodebook A := rfl
@[simp] theorem State.installCode_dmin : (s.installCode A).dmin = BitVec.ofNat 4 (minDistance (buildCodebook A)) := rfl
@[simp] theorem State.installCode_res : (s.installCode A).res = s.res := rfl
@[simp] theorem State.installCode_idx : (s.installCode A).idx = s.idx := rfl
@[simp] theorem State.installCode_errInfo : (s.installCode A).errInfo = s.errInfo := rfl
@[simp] theorem State.installCode_cmdLast : (s.installCode A).cmdLast = s.cmdLast := rfl
@[simp] theorem State.installCode_pend : (s.installCode A).pend = s.pend := rfl
@[simp] theorem State.installCode_err : (s.installCode A).err = s.err := rfl
@[simp] theorem State.installCode_ovr : (s.installCode A).ovr = s.ovr := rfl
@[simp] theorem State.installCode_cfg : (s.installCode A).cfg = true := rfl
@[simp] theorem State.installCode_errCode : (s.installCode A).errCode = s.errCode := rfl
end

section
variable (c : FaultCode)
@[simp] theorem State.takeFault_config : (s.takeFault c).config = s.config := rfl
@[simp] theorem State.takeFault_host : (s.takeFault c).host = s.host := rfl
@[simp] theorem State.takeFault_v : (s.takeFault c).v = s.v := rfl
@[simp] theorem State.takeFault_m : (s.takeFault c).m = s.m := rfl
@[simp] theorem State.takeFault_soft : (s.takeFault c).soft = s.soft := rfl
@[simp] theorem State.takeFault_g : (s.takeFault c).g = s.g := rfl
@[simp] theorem State.takeFault_cb : (s.takeFault c).cb = s.cb := rfl
@[simp] theorem State.takeFault_dmin : (s.takeFault c).dmin = s.dmin := rfl
@[simp] theorem State.takeFault_res : (s.takeFault c).res = s.res := rfl
@[simp] theorem State.takeFault_idx : (s.takeFault c).idx = s.idx := rfl
@[simp] theorem State.takeFault_errInfo : (s.takeFault c).errInfo = s.pend.getD s.errInfo := rfl
@[simp] theorem State.takeFault_cmdLast : (s.takeFault c).cmdLast = s.cmdLast := rfl
@[simp] theorem State.takeFault_pend : (s.takeFault c).pend = none := rfl
@[simp] theorem State.takeFault_err : (s.takeFault c).err = true := rfl
@[simp] theorem State.takeFault_ovr : (s.takeFault c).ovr = s.ovr := rfl
@[simp] theorem State.takeFault_cfg : (s.takeFault c).cfg = s.cfg := rfl
@[simp] theorem State.takeFault_errCode : (s.takeFault c).errCode = c.number := rfl
end

section
@[simp] theorem State.clearError_config : s.clearError.config = s.config := rfl
@[simp] theorem State.clearError_host : s.clearError.host = s.host := rfl
@[simp] theorem State.clearError_v : s.clearError.v = s.v := rfl
@[simp] theorem State.clearError_m : s.clearError.m = s.m := rfl
@[simp] theorem State.clearError_soft : s.clearError.soft = s.soft := rfl
@[simp] theorem State.clearError_g : s.clearError.g = s.g := rfl
@[simp] theorem State.clearError_cb : s.clearError.cb = s.cb := rfl
@[simp] theorem State.clearError_dmin : s.clearError.dmin = s.dmin := rfl
@[simp] theorem State.clearError_res : s.clearError.res = s.res := rfl
@[simp] theorem State.clearError_idx : s.clearError.idx = s.idx := rfl
@[simp] theorem State.clearError_errInfo : s.clearError.errInfo = 0#32 := rfl
@[simp] theorem State.clearError_cmdLast : s.clearError.cmdLast = s.cmdLast := rfl
@[simp] theorem State.clearError_pend : s.clearError.pend = s.pend := rfl
@[simp] theorem State.clearError_err : s.clearError.err = false := rfl
@[simp] theorem State.clearError_ovr : s.clearError.ovr = false := rfl
@[simp] theorem State.clearError_cfg : s.clearError.cfg = s.cfg := rfl
@[simp] theorem State.clearError_errCode : s.clearError.errCode = 0#4 := rfl
end

section
variable (w : Word)
@[simp] theorem State.acceptCommand_config : (s.acceptCommand w).config = s.config := rfl
@[simp] theorem State.acceptCommand_host : (s.acceptCommand w).host = s.host := rfl
@[simp] theorem State.acceptCommand_v : (s.acceptCommand w).v = s.v := rfl
@[simp] theorem State.acceptCommand_m : (s.acceptCommand w).m = s.m := rfl
@[simp] theorem State.acceptCommand_soft : (s.acceptCommand w).soft = s.soft := rfl
@[simp] theorem State.acceptCommand_g : (s.acceptCommand w).g = s.g := rfl
@[simp] theorem State.acceptCommand_cb : (s.acceptCommand w).cb = s.cb := rfl
@[simp] theorem State.acceptCommand_dmin : (s.acceptCommand w).dmin = s.dmin := rfl
@[simp] theorem State.acceptCommand_res : (s.acceptCommand w).res = s.res := rfl
@[simp] theorem State.acceptCommand_idx : (s.acceptCommand w).idx = s.idx := rfl
@[simp] theorem State.acceptCommand_errInfo : (s.acceptCommand w).errInfo = s.errInfo := rfl
@[simp] theorem State.acceptCommand_cmdLast : (s.acceptCommand w).cmdLast = w := rfl
@[simp] theorem State.acceptCommand_pend : (s.acceptCommand w).pend = some w := rfl
@[simp] theorem State.acceptCommand_err : (s.acceptCommand w).err = s.err := rfl
@[simp] theorem State.acceptCommand_ovr : (s.acceptCommand w).ovr = s.ovr := rfl
@[simp] theorem State.acceptCommand_cfg : (s.acceptCommand w).cfg = s.cfg := rfl
@[simp] theorem State.acceptCommand_errCode : (s.acceptCommand w).errCode = s.errCode := rfl
end

section
@[simp] theorem State.retire_config : s.retire.config = s.config := rfl
@[simp] theorem State.retire_host : s.retire.host = s.host := rfl
@[simp] theorem State.retire_v : s.retire.v = s.v := rfl
@[simp] theorem State.retire_m : s.retire.m = s.m := rfl
@[simp] theorem State.retire_soft : s.retire.soft = s.soft := rfl
@[simp] theorem State.retire_g : s.retire.g = s.g := rfl
@[simp] theorem State.retire_cb : s.retire.cb = s.cb := rfl
@[simp] theorem State.retire_dmin : s.retire.dmin = s.dmin := rfl
@[simp] theorem State.retire_res : s.retire.res = s.res := rfl
@[simp] theorem State.retire_idx : s.retire.idx = s.idx := rfl
@[simp] theorem State.retire_errInfo : s.retire.errInfo = s.errInfo := rfl
@[simp] theorem State.retire_cmdLast : s.retire.cmdLast = s.cmdLast := rfl
@[simp] theorem State.retire_pend : s.retire.pend = none := rfl
@[simp] theorem State.retire_err : s.retire.err = s.err := rfl
@[simp] theorem State.retire_ovr : s.retire.ovr = s.ovr := rfl
@[simp] theorem State.retire_cfg : s.retire.cfg = s.cfg := rfl
@[simp] theorem State.retire_errCode : s.retire.errCode = s.errCode := rfl
end

section
variable (h : HostSide)
@[simp] theorem State.withHost_config : (s.withHost h).config = s.config := rfl
@[simp] theorem State.withHost_host : (s.withHost h).host = h := rfl
@[simp] theorem State.withHost_v : (s.withHost h).v = s.v := rfl
@[simp] theorem State.withHost_m : (s.withHost h).m = s.m := rfl
@[simp] theorem State.withHost_soft : (s.withHost h).soft = s.soft := rfl
@[simp] theorem State.withHost_g : (s.withHost h).g = s.g := rfl
@[simp] theorem State.withHost_cb : (s.withHost h).cb = s.cb := rfl
@[simp] theorem State.withHost_dmin : (s.withHost h).dmin = s.dmin := rfl
@[simp] theorem State.withHost_res : (s.withHost h).res = s.res := rfl
@[simp] theorem State.withHost_idx : (s.withHost h).idx = s.idx := rfl
@[simp] theorem State.withHost_errInfo : (s.withHost h).errInfo = s.errInfo := rfl
@[simp] theorem State.withHost_cmdLast : (s.withHost h).cmdLast = s.cmdLast := rfl
@[simp] theorem State.withHost_pend : (s.withHost h).pend = s.pend := rfl
@[simp] theorem State.withHost_err : (s.withHost h).err = s.err := rfl
@[simp] theorem State.withHost_ovr : (s.withHost h).ovr = s.ovr := rfl
@[simp] theorem State.withHost_cfg : (s.withHost h).cfg = s.cfg := rfl
@[simp] theorem State.withHost_errCode : (s.withHost h).errCode = s.errCode := rfl
@[simp] theorem State.withHost_withHost (k : HostSide) : (s.withHost h).withHost k = s.withHost k := rfl
@[simp] theorem State.readV_withHost (i : VIdx) : (s.withHost h).readV i = s.readV i := rfl
@[simp] theorem State.readM_withHost (i : MIdx) : (s.withHost h).readM i = s.readM i := rfl
@[simp] theorem State.readS_withHost (i : SIdx) : (s.withHost h).readS i = s.readS i := rfl
end

@[simp] theorem State.resetBlock_host : s.resetBlock.host = s.host := rfl
@[simp] theorem State.resetBlock_config : s.resetBlock.config = s.config := rfl
@[simp] theorem State.resetBlock_pend : s.resetBlock.pend = none := rfl
@[simp] theorem State.resetBlock_err : s.resetBlock.err = false := rfl

section
@[simp] theorem dropTurn_config : (dropTurn s).config = s.config := rfl
@[simp] theorem dropTurn_host : (dropTurn s).host = { s.host with agenda := s.host.agenda.tail } := rfl
@[simp] theorem dropTurn_v : (dropTurn s).v = s.v := rfl
@[simp] theorem dropTurn_m : (dropTurn s).m = s.m := rfl
@[simp] theorem dropTurn_soft : (dropTurn s).soft = s.soft := rfl
@[simp] theorem dropTurn_g : (dropTurn s).g = s.g := rfl
@[simp] theorem dropTurn_cb : (dropTurn s).cb = s.cb := rfl
@[simp] theorem dropTurn_dmin : (dropTurn s).dmin = s.dmin := rfl
@[simp] theorem dropTurn_res : (dropTurn s).res = s.res := rfl
@[simp] theorem dropTurn_idx : (dropTurn s).idx = s.idx := rfl
@[simp] theorem dropTurn_errInfo : (dropTurn s).errInfo = s.errInfo := rfl
@[simp] theorem dropTurn_cmdLast : (dropTurn s).cmdLast = s.cmdLast := rfl
@[simp] theorem dropTurn_pend : (dropTurn s).pend = s.pend := rfl
@[simp] theorem dropTurn_err : (dropTurn s).err = s.err := rfl
@[simp] theorem dropTurn_ovr : (dropTurn s).ovr = s.ovr := rfl
@[simp] theorem dropTurn_cfg : (dropTurn s).cfg = s.cfg := rfl
@[simp] theorem dropTurn_errCode : (dropTurn s).errCode = s.errCode := rfl
end

/-! Registers after a write. -/

@[simp] theorem State.readV_writeV (d i : VIdx) (n : BitVec 4) (f : Bits) :
    (s.writeV d n f).readV i = if i = d then { len := n, data := pack n.toNat f } else s.readV i := by
  simp only [State.readV, State.writeV_v, Fin.getElem_fin, Vector.getElem_set, Fin.ext_iff]
  simp only [eq_comm]

@[simp] theorem State.readM_writeM (d i : MIdx) (h w : BitVec 4) (A : BitMatrix) :
    (s.writeM d h w A).readM i = if i = d then MatReg.ofBits h w A else s.readM i := by
  simp only [State.readM, State.writeM_m, Fin.getElem_fin, Vector.getElem_set, Fin.ext_iff]
  simp only [eq_comm]

@[simp] theorem State.readV_writeM (d : MIdx) (i : VIdx) (h w : BitVec 4) (A : BitMatrix) :
    (s.writeM d h w A).readV i = s.readV i := rfl
@[simp] theorem State.readV_writeRes (i : VIdx) (w : Word) : (s.writeRes w).readV i = s.readV i := rfl
@[simp] theorem State.readV_writeIdx (i : VIdx) (e : Nat) : (s.writeIdx e).readV i = s.readV i := rfl
@[simp] theorem State.readV_takeFault (i : VIdx) (c : FaultCode) : (s.takeFault c).readV i = s.readV i := rfl
@[simp] theorem State.readM_takeFault (i : MIdx) (c : FaultCode) : (s.takeFault c).readM i = s.readM i := rfl
@[simp] theorem readV_dropTurn (i : VIdx) : (dropTurn s).readV i = s.readV i := rfl
@[simp] theorem readM_dropTurn (i : MIdx) : (dropTurn s).readM i = s.readM i := rfl
@[simp] theorem readS_dropTurn (i : SIdx) : (dropTurn s).readS i = s.readS i := rfl

end Sys2Proof.Machine
end

