-- ==== Sys2Proof/Laws/Exec.lean ====
section
/-! SUPPORT. Laws/Exec.lean: everything a command can do, said once. Each command either takes a fault or has one effect
(43_control.md R131, 60_exceptions.md R152); `Effect` is the shape of that effect. -/

namespace Sys2Proof.Machine

/-- The shape of a command's effect when it does not fault. -/
def Effect : Instr → State → State → Prop
  | .nop, s, t => t = s
  | .vmul d _ _, s, t => ∃ n f, t = s.writeV d n f
  | .mmul d _ _, s, t => ∃ h w A, t = s.writeM d h w A
  | .trans d _, s, t => ∃ h w A, t = s.writeM d h w A
  | .venum d _ _, s, t => ∃ n f, t = s.writeV d n f
  | .gload a, s, t => injective (buildCodebook (s.readM a).bits) = true ∧ t = s.installCode (s.readM a).bits
  | .gread d, s, t => ∃ h w A, t = s.writeM d h w A
  | .enc d _, s, t => ∃ n f, t = s.writeV d n f
  | .cblook d _, s, t => ∃ n f e, t = (s.writeV d n f).writeIdx e
  | .hdist _ _, s, t => ∃ w, t = s.writeRes w
  | .corr _ _, s, t => ∃ w, t = s.writeRes w
  | .dech d _, s, t => ∃ n f w e, t = ((s.writeV d n f).writeRes w).writeIdx e
  | .decs d _, s, t => ∃ n f w e, t = ((s.writeV d n f).writeRes w).writeIdx e

/-- A command always answers a next state: a fault taken, or its effect. -/
theorem exec_cases (i : Instr) (s : State) :
    ∃ t, exec i s = .next t ∧ ((∃ c, t = s.takeFault c) ∨ Effect i s t) := by
  have fault : ∀ (c : FaultCode) (j : Instr),
      ∃ t, raiseFault c s = .next t ∧ ((∃ c, t = s.takeFault c) ∨ Effect j s t) :=
    fun c _ => ⟨_, rfl, .inl ⟨c, rfl⟩⟩
  cases i with
  | nop => exact ⟨_, rfl, .inr rfl⟩
  | vmul d a b =>
    simp only [exec, execVmul]
    split_ifs
    all_goals first | exact fault _ _ | exact ⟨_, rfl, .inr ⟨_, _, rfl⟩⟩
  | mmul d a b =>
    simp only [exec, execMmul]
    split_ifs
    all_goals first | exact fault _ _ | exact ⟨_, rfl, .inr ⟨_, _, _, rfl⟩⟩
  | trans d a =>
    simp only [exec, execTrans]
    split_ifs
    all_goals first | exact fault _ _ | exact ⟨_, rfl, .inr ⟨_, _, _, rfl⟩⟩
  | venum d size index =>
    simp only [exec, execVenum]
    split_ifs
    all_goals first | exact fault _ _ | exact ⟨_, rfl, .inr ⟨_, _, rfl⟩⟩
  | gload a =>
    simp only [exec, execGload]
    split_ifs with _ _ h
    all_goals first | exact fault _ _ | exact ⟨_, rfl, .inr ⟨by simpa using h, rfl⟩⟩
  | gread d =>
    simp only [exec, execGread]
    split_ifs
    all_goals first | exact fault _ _ | exact ⟨_, rfl, .inr ⟨_, _, _, rfl⟩⟩
  | enc d a =>
    simp only [exec, execEnc]
    split_ifs
    all_goals first | exact fault _ _ | exact ⟨_, rfl, .inr ⟨_, _, rfl⟩⟩
  | cblook d a =>
    simp only [exec, execCblook]
    split_ifs
    · exact fault _ _
    · exact fault _ _
    · exact fault _ _
    · split
      · exact fault _ _
      · exact ⟨_, rfl, .inr ⟨_, _, _, rfl⟩⟩
  | hdist a b =>
    simp only [exec, execHdist]
    split_ifs
    all_goals first | exact fault _ _ | exact ⟨_, rfl, .inr ⟨_, rfl⟩⟩
  | corr a b =>
    simp only [exec, execCorr]
    split_ifs
    all_goals first | exact fault _ _ | exact ⟨_, rfl, .inr ⟨_, rfl⟩⟩
  | dech d a =>
    simp only [exec, execDech]
    split_ifs
    all_goals first | exact fault _ _ | exact ⟨_, rfl, .inr ⟨_, _, _, _, rfl⟩⟩
  | decs d a =>
    simp only [exec, execDecs]
    split_ifs
    all_goals first | exact fault _ _ | exact ⟨_, rfl, .inr ⟨_, _, _, _, rfl⟩⟩

/-- The same, read from the next state. -/
theorem exec_next {i : Instr} {s t : State} (h : exec i s = .next t) :
    (∃ c, t = s.takeFault c) ∨ Effect i s t := by
  obtain ⟨t', ht, h'⟩ := exec_cases i s
  rw [h] at ht
  obtain rfl : t = t' := by simpa using ht
  exact h'

/-- A fault's state when a command word is pending (60_exceptions.md R152). -/
theorem takeFault_eq_faulted {s : State} {w : Word} (h : s.pend = some w) (c : FaultCode) :
    s.takeFault c = faulted s w c.number := by
  simp [State.takeFault, faulted, h]

/-- Performing any word answers a next state: the effect of the instruction it decodes to, or a fault. -/
theorem perform_cases (w : Word) (s : State) :
    ∃ t, perform w s = .next t ∧ ((∃ c, t = s.takeFault c) ∨ ∃ i, decode w = .ok i ∧ Effect i s t) := by
  unfold perform
  split
  · rename_i i hi
    obtain ⟨t, ht, h⟩ := exec_cases i s
    exact ⟨t, ht, h.imp_right fun h => ⟨i, hi, h⟩⟩
  · exact ⟨_, rfl, .inl ⟨_, rfl⟩⟩

/-- The sequencer's turn always answers a next state: nothing without a pending command, else the retired outcome. -/
theorem sequencerStep_cases (s : State) :
    (s.pend = none ∧ sequencerStep s = .next s) ∨
      ∃ w t, s.pend = some w ∧ sequencerStep s = .next t.retire ∧
        ((∃ c, t = s.takeFault c) ∨ ∃ i, decode w = .ok i ∧ Effect i s t) := by
  unfold sequencerStep
  split
  · rename_i h
    exact .inl ⟨h, rfl⟩
  · rename_i w h
    obtain ⟨t, ht, h'⟩ := perform_cases w s
    exact .inr ⟨w, t, h, by rw [ht]; rfl, h'⟩

/-- Every turn answers a next state (43_control.md R132). -/
theorem takeTurn_next (t : Turn) (s : State) : ∃ s', takeTurn t s = .next s' := by
  cases t with
  | host a => exact ⟨_, rfl⟩
  | sequencer =>
    rcases sequencerStep_cases s with ⟨-, h⟩ | ⟨w, t, -, h, -⟩
    · exact ⟨_, h⟩
    · exact ⟨_, h⟩
  | hardReset cut => exact ⟨_, rfl⟩

/-- A step that answers a next state is one turn of a legal configuration. -/
theorem step_next {s t : State} (h : step s = .next t) :
    configLegal s.config = true ∧ takeTurn (nextTurn s) (dropTurn s) = .next t := by
  unfold step at h
  split at h
  · exact ⟨‹_›, h⟩
  · simp at h

theorem step_of_legal {s : State} (h : configLegal s.config = true) :
    step s = takeTurn (nextTurn s) (dropTurn s) := by
  simp [step, h]

/-- An effect leaves the error state, PEND, CMDLAST, the samples, the configuration and the host's side alone. -/
theorem Effect.frame {i : Instr} {s t : State} (h : Effect i s t) :
    t.err = s.err ∧ t.errCode = s.errCode ∧ t.errInfo = s.errInfo ∧ t.pend = s.pend ∧ t.ovr = s.ovr ∧
      t.cmdLast = s.cmdLast ∧ t.soft = s.soft ∧ t.config = s.config ∧ t.host = s.host := by
  cases i with
  | nop => obtain rfl := h; simp
  | vmul | venum | enc => obtain ⟨_, _, rfl⟩ := h; simp
  | mmul | trans | gread => obtain ⟨_, _, _, rfl⟩ := h; simp
  | gload => obtain ⟨-, rfl⟩ := h; simp
  | cblook => obtain ⟨_, _, _, rfl⟩ := h; simp
  | hdist | corr => obtain ⟨_, rfl⟩ := h; simp
  | dech | decs => obtain ⟨_, _, _, _, rfl⟩ := h; simp

/-- Only GLOAD writes the code (41_code_definition.md R117). -/
theorem Effect.code {i : Instr} {s t : State} (h : Effect i s t) (hi : ∀ a, i ≠ .gload a) :
    t.g = s.g ∧ t.cb = s.cb ∧ t.dmin = s.dmin ∧ t.cfg = s.cfg := by
  cases i with
  | nop => obtain rfl := h; simp
  | vmul | venum | enc => obtain ⟨_, _, rfl⟩ := h; simp
  | mmul | trans | gread => obtain ⟨_, _, _, rfl⟩ := h; simp
  | gload a => exact absurd rfl (hi a)
  | cblook => obtain ⟨_, _, _, rfl⟩ := h; simp
  | hdist | corr => obtain ⟨_, rfl⟩ := h; simp
  | dech | decs => obtain ⟨_, _, _, _, rfl⟩ := h; simp

/-- A vector register after an effect: as before, or a packed result whose bits at and above its length are 0. -/
theorem Effect.vectors {i : Instr} {s t : State} (h : Effect i s t) (k : VIdx) :
    t.readV k = s.readV k ∨ ∃ n f, t.readV k = { len := n, data := pack n.toNat f } := by
  have key : ∀ (d : VIdx) (n : BitVec 4) (f : Bits),
      (s.writeV d n f).readV k = s.readV k ∨ ∃ m g, (s.writeV d n f).readV k = { len := m, data := pack m.toNat g } := by
    intro d n f
    rw [State.readV_writeV]
    split
    · exact .inr ⟨n, f, rfl⟩
    · exact .inl rfl
  cases i with
  | nop => obtain rfl := h; exact .inl rfl
  | vmul d | venum d | enc d => obtain ⟨n, f, rfl⟩ := h; exact key _ n f
  | mmul | trans | gread => obtain ⟨_, _, _, rfl⟩ := h; exact .inl rfl
  | gload => obtain ⟨-, rfl⟩ := h; exact .inl rfl
  | cblook d => obtain ⟨n, f, _, rfl⟩ := h; exact key _ n f
  | hdist | corr => obtain ⟨_, rfl⟩ := h; exact .inl rfl
  | dech d | decs d => obtain ⟨n, f, _, _, rfl⟩ := h; exact key _ n f

end Sys2Proof.Machine
end

