-- ==== Sys2Proof/Laws/Window.lean ====
section
/-! SUPPORT. Laws/Window.lean: the window as a memory: where each register stands, what a write leaves of the other registers, and
what a register reads after its own write (20_memory.md R52 to R54). -/

namespace Sys2Proof.Machine

theorem regAt_vec (i : VIdx) : regAt (0x040 + 4 * i.val) = .vec i := by revert i; decide
theorem regAt_matRow (m : MIdx) (r : Fin 10) : regAt (0x100 + 0x40 * m.val + 4 * r.val) = .matRow m r := by
  revert m r; decide
theorem regAt_matDims (m : MIdx) : regAt (0x100 + 0x40 * m.val + 0x28) = .matDims m := by revert m; decide
theorem regAt_sample (i : SIdx) (k : Fin 10) : regAt (0x200 + 0x40 * i.val + 4 * k.val) = .sample i k := by
  revert i k; decide
theorem regAt_softLen (i : SIdx) : regAt (0x200 + 0x40 * i.val + 0x28) = .softLen i := by revert i; decide
theorem regAt_genRow (r : Fin 6) : regAt (0x300 + 4 * r.val) = .genRow r := by revert r; decide
theorem regAt_cbEntry (e : Fin 64) : regAt (0x400 + 4 * e.val) = .cbEntry e := by revert e; decide

/-- A host write of a register other than CMD and CTRL leaves every other register's image as it was. -/
theorem image_storeReg_of_ne (s : State) (w : Word) {r r' : WinReg} (hcmd : r ≠ .cmd) (hctrl : r ≠ .ctrl)
    (h : r' ≠ r) : (s.storeReg w r).image r' = s.image r' := by
  cases r with
  | cmd => exact absurd rfl hcmd
  | ctrl => exact absurd rfl hctrl
  | vec i =>
    cases r' <;> try rfl
    rename_i j
    have hij : ¬ i.val = j.val := fun e => h (by rw [Fin.ext e])
    simp [State.image, State.storeReg, hij]
  | matRow m k =>
    cases r' <;> try rfl
    · rename_i m' k'
      by_cases hm : m.val = m'.val
      · have hk : ¬ k.val = k'.val := fun e => h (by rw [Fin.ext hm, Fin.ext e])
        simp [State.image, State.storeReg, hm, hk]
      · simp [State.image, State.storeReg, hm]
    · rename_i m'
      by_cases hm : m.val = m'.val
      · simp [State.image, State.storeReg, hm, MatReg.dimsImage]
      · simp [State.image, State.storeReg, hm]
  | matDims m =>
    cases r' <;> try rfl
    · rename_i m' k'
      by_cases hm : m.val = m'.val
      · simp [State.image, State.storeReg, hm]
      · simp [State.image, State.storeReg, hm]
    · rename_i m'
      have hm : ¬ m.val = m'.val := fun e => h (by rw [Fin.ext e])
      simp [State.image, State.storeReg, hm]
  | sample i k =>
    cases r' <;> try rfl
    · rename_i i' k'
      by_cases hm : i.val = i'.val
      · have hk : ¬ k.val = k'.val := fun e => h (by rw [Fin.ext hm, Fin.ext e])
        simp [State.image, State.storeReg, hm, hk]
      · simp [State.image, State.storeReg, hm]
    · rename_i i'
      by_cases hm : i.val = i'.val
      · simp [State.image, State.storeReg, hm]
      · simp [State.image, State.storeReg, hm]
  | softLen i =>
    cases r' <;> try rfl
    · rename_i i' k'
      by_cases hm : i.val = i'.val
      · simp [State.image, State.storeReg, hm]
      · simp [State.image, State.storeReg, hm]
    · rename_i i'
      have hm : ¬ i.val = i'.val := fun e => h (by rw [Fin.ext e])
      simp [State.image, State.storeReg, hm]
  | _ => rfl

/-- A host write does not look at the host's side, nor change it. -/
theorem storeReg_withHost (s : State) (h : HostSide) (w : Word) (r : WinReg) :
    (s.withHost h).storeReg w r = (s.storeReg w r).withHost h := by
  cases r with
  | cmd =>
    cases hp : s.pend <;> cases he : s.err <;> simp [State.storeReg, State.offerCommand, State.busy, hp, he] <;> rfl
  | ctrl =>
    cases h0 : w.getLsbD 0 <;> cases h1 : w.getLsbD 1 <;> simp only [State.storeReg, State.control, h0, h1] <;> rfl
  | _ => rfl

/-! The actions of CTRL (10_state.md R26). -/

theorem control_srst {s : State} {w : Word} (h : w.getLsbD 0 = true) : s.control w = s.resetBlock := by
  simp only [State.control, h, if_true]

theorem control_clrerr {s : State} {w : Word} (h : w.getLsbD 0 = false) (h' : w.getLsbD 1 = true) :
    s.control w = s.clearError := by
  simp only [State.control, h, h', if_true, if_false, Bool.false_eq_true]

theorem control_none {s : State} {w : Word} (h : w.getLsbD 0 = false) (h' : w.getLsbD 1 = false) : s.control w = s := by
  simp only [State.control, h, h', if_false, Bool.false_eq_true]

theorem accessOk_iff {off size : Nat} : accessOk off size = true ↔ size = 4 ∧ off % 4 = 0 ∧ off < 0x1000 := by
  simp [accessOk, and_assoc]

/-! A register's image after its own write (10_state.md R27, R28, R30). -/

theorem image_storeReg_vec (s : State) (w : Word) (i : VIdx) :
    (s.storeReg w (.vec i)).image (.vec i) = (VecReg.ofImage w).image := by
  simp [State.image, State.storeReg]

theorem image_storeReg_matRow (s : State) (w : Word) (m : MIdx) (r : Fin 10) :
    (s.storeReg w (.matRow m r)).image (.matRow m r) = (w.setWidth 10).setWidth 32 := by
  simp [State.image, State.storeReg]

theorem image_storeReg_matDims (s : State) (w : Word) (m : MIdx) :
    (s.storeReg w (.matDims m)).image (.matDims m) = 0#20 ++ w.extractLsb' 8 4 ++ 0#4 ++ w.extractLsb' 0 4 := by
  simp [State.image, State.storeReg, MatReg.dimsImage]

theorem image_storeReg_sample (s : State) (w : Word) (i : SIdx) (k : Fin 10) :
    (s.storeReg w (.sample i k)).image (.sample i k) = sampleImage s.config (storedSample s.config w) := by
  simp [State.image, State.storeReg]

theorem image_storeReg_softLen (s : State) (w : Word) (i : SIdx) :
    (s.storeReg w (.softLen i)).image (.softLen i) = (w.extractLsb' 0 4).setWidth 32 := by
  simp [State.image, State.storeReg]

/-- Each offset of the window that holds a register holds the one the map puts there (20_memory.md R52). -/
theorem offset_regAt {off : Nat} (h1 : off % 4 = 0) (h2 : off < 0x1000) (h : regAt off ≠ .reserved) :
    (regAt off).offset = some off := by
  obtain ⟨k, rfl⟩ : ∃ k, off = 4 * k := ⟨off / 4, by omega⟩
  have key : ∀ k < 1024, regAt (4 * k) ≠ .reserved → (regAt (4 * k)).offset = some (4 * k) := by decide +kernel
  exact key k (by omega) h

theorem regAt_eq_ctrl {off : Nat} (h1 : off % 4 = 0) (h2 : off < 0x1000) (h : regAt off = .ctrl) : off = 0x00C := by
  have := offset_regAt h1 h2 (by rw [h]; decide)
  rw [h] at this
  simpa [WinReg.offset, eq_comm] using this

theorem regAt_eq_cmd {off : Nat} (h1 : off % 4 = 0) (h2 : off < 0x1000) (h : regAt off = .cmd) : off = 0x004 := by
  have := offset_regAt h1 h2 (by rw [h]; decide)
  rw [h] at this
  simpa [WinReg.offset, eq_comm] using this

theorem regAt_eq_status {off : Nat} (h1 : off % 4 = 0) (h2 : off < 0x1000) (h : regAt off = .status) :
    off = 0x008 := by
  have := offset_regAt h1 h2 (by rw [h]; decide)
  rw [h] at this
  simpa [WinReg.offset, eq_comm] using this

/-- BUSY as it reads: bit 0 of STATUS (10_state.md R25). -/
@[simp] theorem statusImage_busy (s : State) : s.statusImage.getLsbD 0 = s.busy := by
  simp only [State.statusImage, BitVec.getLsbD_append]
  simp

/-- A pending command stays pending through a host write other than a soft reset (20_memory.md R56, R65). -/
theorem storeReg_pend {s : State} {v : Word} (hp : s.pend = some v) (w : Word) (r : WinReg)
    (hr : r = .ctrl → w.getLsbD 0 = false) : (s.storeReg w r).pend = some v := by
  cases r <;> first | exact hp | skip
  · simp [State.storeReg, State.offerCommand, State.busy, hp]
  · simp only [State.storeReg, State.control, hr rfl, Bool.false_eq_true, if_false]
    split <;> exact hp

/-! What the shared writes leave of the window (30_encoding.md R84, 60_exceptions.md R152). -/

theorem image_takeFault (s : State) (c : FaultCode) {r : WinReg} (h1 : r ≠ .status) (h2 : r ≠ .errInfo) :
    (s.takeFault c).image r = s.image r := by
  cases r <;> first | rfl | exact absurd rfl h1 | exact absurd rfl h2

theorem image_retire (s : State) {r : WinReg} (h : r ≠ .status) : s.retire.image r = s.image r := by
  cases r <;> first | rfl | exact absurd rfl h

theorem image_writeV (s : State) (d : VIdx) (n : BitVec 4) (f : Bits) {r : WinReg} (h : r ≠ .vec d) :
    (s.writeV d n f).image r = s.image r := by
  cases r <;> try rfl
  rename_i i
  have : ¬ d.val = i.val := fun e => h (by rw [Fin.ext e])
  simp [State.image, State.writeV, this]

theorem image_writeM (s : State) (d : MIdx) (n w : BitVec 4) (A : BitMatrix) {r : WinReg} (h : ofMat d r = false) :
    (s.writeM d n w A).image r = s.image r := by
  cases r <;> try rfl
  all_goals
    rename_i i
    simp only [ofMat, decide_eq_false_iff_not] at h
  · rename_i m
    have : ¬ d.val = m.val := fun e => h (by rw [Fin.ext e])
    simp [State.image, State.writeM, this]
  · have : ¬ d.val = i.val := fun e => h (by rw [Fin.ext e])
    simp [State.image, State.writeM, this]

theorem image_writeRes (s : State) (w : Word) {r : WinReg} (h : r ≠ .res) : (s.writeRes w).image r = s.image r := by
  cases r <;> first | rfl | exact absurd rfl h

theorem image_writeIdx (s : State) (e : Nat) {r : WinReg} (h : r ≠ .idx) : (s.writeIdx e).image r = s.image r := by
  cases r <;> first | rfl | exact absurd rfl h

theorem image_installCode (s : State) (A : BitMatrix) {r : WinReg} (h : commandWrites (.gload 0) r = false) :
    (s.installCode A).image r = s.image r := by
  cases r <;> first | (simp [commandWrites, ofGen, ofCodebook] at h; done) | rfl

/-- A command that succeeds leaves every register outside its column "writes" of R84. -/
theorem Effect.image {i : Instr} {s t : State} (h : Effect i s t) {r : WinReg} (hr : commandWrites i r = false) :
    t.image r = s.image r := by
  cases i
  case gload => obtain ⟨-, rfl⟩ := h; exact image_installCode _ _ hr
  all_goals simp only [commandWrites, Bool.or_eq_false_iff, decide_eq_false_iff_not] at hr
  case nop => obtain rfl := h; rfl
  case vmul | venum | enc => obtain ⟨_, _, rfl⟩ := h; exact image_writeV _ _ _ _ hr
  case mmul | trans | gread => obtain ⟨_, _, _, rfl⟩ := h; exact image_writeM _ _ _ _ _ hr
  case cblook => obtain ⟨_, _, _, rfl⟩ := h; rw [image_writeIdx _ _ hr.2, image_writeV _ _ _ _ hr.1]
  case hdist | corr => obtain ⟨_, rfl⟩ := h; exact image_writeRes _ _ hr
  case dech | decs =>
    obtain ⟨_, _, _, _, rfl⟩ := h
    rw [image_writeIdx _ _ hr.2, image_writeRes _ _ hr.1.2, image_writeV _ _ _ _ hr.1.1]

end Sys2Proof.Machine
end

