-- ==== Sys2Proof/Laws/Commute.lean ====
section
/-! SUPPORT. Laws/Commute.lean: a command does not see the host's side, nor a register outside those it reads and writes; so it
commutes with a host write of one (20_memory.md R63, 70_reset_and_hazards.md R191). -/

namespace Sys2Proof.Machine

/-- A function applied to the next state of an outcome. -/
def mapNext (f : State → State) : Host.Outcome State Fault Refusal → Host.Outcome State Fault Refusal
  | .next s => .next (f s)
  | .fault e => .fault e
  | .refused e => .refused e

section

variable {s : State} {w : Word} {r : WinReg} (h1 : r ≠ .cmd) (h2 : r ≠ .ctrl)

include h1 h2

theorem storeReg_fixed :
    (s.storeReg w r).cfg = s.cfg ∧ (s.storeReg w r).g = s.g ∧ (s.storeReg w r).cb = s.cb
    ∧ (s.storeReg w r).pend = s.pend ∧ (s.storeReg w r).config = s.config ∧ (s.storeReg w r).host = s.host := by
  cases r <;> first | exact absurd rfl h1 | exact absurd rfl h2 | exact ⟨rfl, rfl, rfl, rfl, rfl, rfl⟩

theorem readV_storeReg (k : VIdx) (h : r ≠ .vec k) : (s.storeReg w r).readV k = s.readV k := by
  cases r <;> first | exact absurd rfl h1 | exact absurd rfl h2 | rfl | skip
  rename_i i
  have : ¬ i.val = k.val := fun e => h (by rw [Fin.ext e])
  simp [State.readV, State.storeReg, this]

theorem readM_storeReg (k : MIdx) (h : ofMat k r = false) : (s.storeReg w r).readM k = s.readM k := by
  cases r <;> first | exact absurd rfl h1 | exact absurd rfl h2 | rfl | skip
  all_goals
    simp only [ofMat, decide_eq_false_iff_not, Fin.ext_iff] at h
    simp [State.readM, State.storeReg, h]

theorem readS_storeReg (k : SIdx) (h : ofSoft k r = false) : (s.storeReg w r).readS k = s.readS k := by
  cases r <;> first | exact absurd rfl h1 | exact absurd rfl h2 | rfl | skip
  all_goals
    simp only [ofSoft, decide_eq_false_iff_not, Fin.ext_iff] at h
    simp [State.readS, State.storeReg, h]

theorem takeFault_storeReg (c : FaultCode) : (s.storeReg w r).takeFault c = (s.takeFault c).storeReg w r := by
  cases r <;> first | exact absurd rfl h1 | exact absurd rfl h2 | rfl

theorem retire_storeReg : (s.storeReg w r).retire = s.retire.storeReg w r := by
  cases r <;> first | exact absurd rfl h1 | exact absurd rfl h2 | rfl

theorem writeRes_storeReg (c : Word) : (s.storeReg w r).writeRes c = (s.writeRes c).storeReg w r := by
  cases r <;> first | exact absurd rfl h1 | exact absurd rfl h2 | rfl

theorem writeIdx_storeReg (c : Nat) : (s.storeReg w r).writeIdx c = (s.writeIdx c).storeReg w r := by
  cases r <;> first | exact absurd rfl h1 | exact absurd rfl h2 | rfl

theorem installCode_storeReg (A : BitMatrix) : (s.storeReg w r).installCode A = (s.installCode A).storeReg w r := by
  cases r <;> first | exact absurd rfl h1 | exact absurd rfl h2 | rfl

theorem writeV_storeReg (d : VIdx) (n : BitVec 4) (f : Bits) (h : r ≠ .vec d) :
    (s.storeReg w r).writeV d n f = (s.writeV d n f).storeReg w r := by
  cases r <;> first | exact absurd rfl h1 | exact absurd rfl h2 | rfl | skip
  rename_i i
  have : i.val ≠ d.val := fun e => h (by rw [Fin.ext e])
  simp only [State.writeV, State.storeReg]
  congr 1
  exact Vector.set_comm _ _ this

theorem writeM_storeReg (d : MIdx) (n f : BitVec 4) (A : BitMatrix) (h : ofMat d r = false) :
    (s.storeReg w r).writeM d n f A = (s.writeM d n f A).storeReg w r := by
  cases r <;> first | exact absurd rfl h1 | exact absurd rfl h2 | rfl | skip
  all_goals
    rename_i i
    simp only [ofMat, decide_eq_false_iff_not] at h
  · rename_i m
    have h' : m.val ≠ d.val := fun e => h (Fin.ext e)
    simp only [State.writeM, State.storeReg]
    congr 1
    simp [h'.symm]
    exact Vector.set_comm _ _ h'
  · have h' : i.val ≠ d.val := fun e => h (Fin.ext e)
    simp only [State.writeM, State.storeReg]
    congr 1
    simp [h'.symm]
    exact Vector.set_comm _ _ h'

/-- A host write of a register the command neither reads nor writes commutes with the command. -/
theorem exec_storeReg (i : Instr) (hr : commandReads i r = false) (hw : commandWrites i r = false) :
    exec i (s.storeReg w r) = mapNext (fun t => t.storeReg w r) (exec i s) := by
  have fl := fun c => takeFault_storeReg (s := s) (w := w) h1 h2 c
  obtain ⟨c1, c2, c3, c4, c5, c6⟩ := storeReg_fixed (s := s) (w := w) h1 h2
  cases i <;> simp only [commandReads, commandWrites, Bool.or_eq_false_iff, decide_eq_false_iff_not] at hr hw
  case nop => rfl
  case vmul =>
    simp only [exec, execVmul, readV_storeReg h1 h2 _ hr.1, readM_storeReg h1 h2 _ hr.2, raiseFault, fl,
      writeV_storeReg h1 h2 _ _ _ hw]
    split_ifs <;> rfl
  case mmul =>
    simp only [exec, execMmul, readM_storeReg h1 h2 _ hr.1, readM_storeReg h1 h2 _ hr.2, raiseFault, fl,
      writeM_storeReg h1 h2 _ _ _ _ hw]
    split_ifs <;> rfl
  case trans =>
    simp only [exec, execTrans, readM_storeReg h1 h2 _ hr, raiseFault, fl, writeM_storeReg h1 h2 _ _ _ _ hw]
    split_ifs <;> rfl
  case venum =>
    simp only [exec, execVenum, raiseFault, fl, writeV_storeReg h1 h2 _ _ _ hw]
    split_ifs <;> rfl
  case gload =>
    simp only [exec, execGload, readM_storeReg h1 h2 _ hr, raiseFault, fl, installCode_storeReg h1 h2]
    split_ifs <;> rfl
  case gread =>
    simp only [exec, execGread, raiseFault, fl, c1, c2, writeM_storeReg h1 h2 _ _ _ _ hw]
    split_ifs <;> rfl
  case enc =>
    simp only [exec, execEnc, raiseFault, fl, c1, c2, readV_storeReg h1 h2 _ hr.1.1, writeV_storeReg h1 h2 _ _ _ hw]
    split_ifs <;> rfl
  case cblook =>
    simp only [exec, execCblook, raiseFault, fl, c1, c3, readV_storeReg h1 h2 _ hr.1.1,
      writeV_storeReg h1 h2 _ _ _ hw.1, writeIdx_storeReg h1 h2]
    split_ifs <;> first | rfl | (split <;> rfl)
  case hdist =>
    simp only [exec, execHdist, raiseFault, fl, readV_storeReg h1 h2 _ hr.1, readV_storeReg h1 h2 _ hr.2,
      writeRes_storeReg h1 h2]
    split_ifs <;> rfl
  case corr =>
    simp only [exec, execCorr, raiseFault, fl, c5, readS_storeReg h1 h2 _ hr.1, readV_storeReg h1 h2 _ hr.2,
      writeRes_storeReg h1 h2]
    split_ifs <;> rfl
  case dech =>
    simp only [exec, execDech, raiseFault, fl, c1, c3, readV_storeReg h1 h2 _ hr.1.1,
      writeV_storeReg h1 h2 _ _ _ hw.1.1, writeIdx_storeReg h1 h2, writeRes_storeReg h1 h2]
    split_ifs <;> rfl
  case decs =>
    simp only [exec, execDecs, raiseFault, fl, c1, c3, c5, readS_storeReg h1 h2 _ hr.1.1,
      writeV_storeReg h1 h2 _ _ _ hw.1.1, writeIdx_storeReg h1 h2, writeRes_storeReg h1 h2]
    split_ifs <;> rfl

end

/-- A command does not see the host's side, nor change it. -/
theorem exec_withHost (i : Instr) (s : State) (h : HostSide) :
    exec i (s.withHost h) = mapNext (fun t => t.withHost h) (exec i s) := by
  have a1 : ∀ k, (s.withHost h).readV k = s.readV k := fun _ => rfl
  have a2 : ∀ k, (s.withHost h).readM k = s.readM k := fun _ => rfl
  have a3 : ∀ k, (s.withHost h).readS k = s.readS k := fun _ => rfl
  have a4 : (s.withHost h).cfg = s.cfg := rfl
  have a5 : (s.withHost h).g = s.g := rfl
  have a6 : (s.withHost h).cb = s.cb := rfl
  have a7 : (s.withHost h).config = s.config := rfl
  cases i <;> simp only [exec, execNop, execVmul, execMmul, execTrans, execVenum, execGload, execGread, execEnc,
    execCblook, execHdist, execCorr, execDech, execDecs,
    a1, a2, a3, a4, a5, a6, a7]
  all_goals try split_ifs
  all_goals first | rfl | (split <;> rfl)

/-- The sequencer's step of a pending instruction. -/
theorem sequencerStep_of_exec {s t : State} {w : Word} {i : Instr} (hp : s.pend = some w) (hd :
    decode w = .ok i) (he : exec i s = .next t) : sequencerStep s = .next t.retire := by
  simp [sequencerStep, hp, perform, hd, he, retireOutcome]

/-- The same under another host side. -/
theorem sequencerStep_withHost (s : State) (h : HostSide) {w : Word} {i : Instr} {t : State} (hp :
    s.pend = some w) (hd : decode w = .ok i) (he : exec i s = .next t) :
    sequencerStep (s.withHost h) = .next (t.retire.withHost h) :=
  sequencerStep_of_exec (s := s.withHost h) (t := t.withHost h) hp hd ((exec_withHost i s h).trans (by rw [he]; rfl))

end Sys2Proof.Machine
end

