-- ==== Sys2Proof/Laws/Decode.lean ====
section
/-! SUPPORT. Laws/Decode.lean: the fields of an encoded word, and what the decoder does in each case (30_encoding.md R81 to R85). -/

namespace Sys2Proof

section
variable (op : Opcode) (d a b : BitVec 4) (imm : BitVec 14)

@[simp] theorem opField_encodeFields : opField (encodeFields op d a b imm) = op.number := by
  apply BitVec.eq_of_getLsbD_eq
  intro i hi
  simp only [opField, encodeFields, BitVec.getLsbD_extractLsb', BitVec.getLsbD_append]
  simp [hi, show ¬ 26 + i < 14 by omega, show ¬ 26 + i - 14 < 4 by omega, show ¬ 26 + i - 14 - 4 < 4 by omega,
    show ¬ 26 + i - 14 - 4 - 4 < 4 by omega, show 26 + i - 14 - 4 - 4 - 4 = i by omega]

@[simp] theorem dField_encodeFields : dField (encodeFields op d a b imm) = d := by
  apply BitVec.eq_of_getLsbD_eq
  intro i hi
  simp only [dField, encodeFields, BitVec.getLsbD_extractLsb', BitVec.getLsbD_append]
  simp [hi, show ¬ 22 + i < 14 by omega, show ¬ 22 + i - 14 < 4 by omega, show ¬ 22 + i - 14 - 4 < 4 by omega,
    show 22 + i - 14 - 4 - 4 = i by omega]

@[simp] theorem aField_encodeFields : aField (encodeFields op d a b imm) = a := by
  apply BitVec.eq_of_getLsbD_eq
  intro i hi
  simp only [aField, encodeFields, BitVec.getLsbD_extractLsb', BitVec.getLsbD_append]
  simp [hi, show ¬ 18 + i < 14 by omega, show ¬ 18 + i - 14 < 4 by omega, show 18 + i - 14 - 4 = i by omega]

@[simp] theorem bField_encodeFields : bField (encodeFields op d a b imm) = b := by
  apply BitVec.eq_of_getLsbD_eq
  intro i hi
  simp only [bField, encodeFields, BitVec.getLsbD_extractLsb', BitVec.getLsbD_append]
  simp [hi, show ¬ 14 + i < 14 by omega, show 14 + i - 14 = i by omega]

@[simp] theorem immField_encodeFields : immField (encodeFields op d a b imm) = imm := by
  apply BitVec.eq_of_getLsbD_eq
  intro i hi
  simp only [immField, encodeFields, BitVec.getLsbD_extractLsb', BitVec.getLsbD_append]
  simp [hi]
end

/-- A word is the word of its own fields. -/
theorem append_fields (w : Word) : opField w ++ dField w ++ aField w ++ bField w ++ immField w = w := by
  apply BitVec.eq_of_getLsbD_eq
  intro i hi
  simp only [opField, dField, aField, bField, immField, BitVec.getLsbD_append, BitVec.getLsbD_extractLsb']
  by_cases h1 : i < 14
  · simp [h1]
  · by_cases h2 : i - 14 < 4
    · simp [h1, h2, show 14 + (i - 14) = i by omega]
    · by_cases h3 : i - 14 - 4 < 4
      · simp [h1, h2, h3, show 18 + (i - 14 - 4) = i by omega]
      · by_cases h4 : i - 14 - 4 - 4 < 4
        · simp [h1, h2, h3, h4, show 22 + (i - 14 - 4 - 4) = i by omega]
        · simp [h1, h2, h3, h4, show i - 14 - 4 - 4 - 4 < 6 by omega, show 26 + (i - 14 - 4 - 4 - 4) = i by omega]

@[simp] theorem ofNumber_number (op : Opcode) : Opcode.ofNumber op.number = some op := by cases op <;> rfl

theorem number_ofNumber : ∀ {n : BitVec 6} {op : Opcode}, Opcode.ofNumber n = some op → op.number = n := by decide +revert

/-- A number is reserved exactly when it is 0x0D or more (R85). -/
theorem ofNumber_eq_none : ∀ n : BitVec 6, Opcode.ofNumber n = none ↔ 0x0D ≤ n.toNat := by decide

@[simp] theorem vIdx_regField (i : VIdx) : vIdx (regField i) = i := by revert i; decide
@[simp] theorem mIdx_regField (i : MIdx) : mIdx (regField i) = i := by revert i; decide
@[simp] theorem sIdx_regField (i : SIdx) : sIdx (regField i) = i := by revert i; decide
@[simp] theorem regField_vIdx (f : BitVec 4) : regField (vIdx f) = f := by revert f; decide
theorem regField_mIdx : ∀ {f : BitVec 4}, f.toNat < 4 → regField (mIdx f) = f := by decide +revert
theorem regField_sIdx : ∀ {f : BitVec 4}, f.toNat < 4 → regField (sIdx f) = f := by decide +revert
@[simp] theorem regField_lt_four (i : Fin 4) : (regField i).toNat < 4 := by revert i; decide

/-- The two parts of VENUM's immediate (R83). -/
@[simp] theorem imm_size (size : BitVec 4) (index : BitVec 10) :
    BitVec.extractLsb' 10 4 (size ++ index : BitVec 14) = size := by
  apply BitVec.eq_of_getLsbD_eq
  intro i hi
  simp only [BitVec.getLsbD_extractLsb', BitVec.getLsbD_append]
  simp [hi, show ¬ 10 + i < 10 by omega]

@[simp] theorem imm_index (size : BitVec 4) (index : BitVec 10) :
    BitVec.extractLsb' 0 10 (size ++ index : BitVec 14) = index := by
  apply BitVec.eq_of_getLsbD_eq
  intro i hi
  simp only [BitVec.getLsbD_extractLsb', BitVec.getLsbD_append]
  simp [hi]

theorem append_imm (imm : BitVec 14) : imm.extractLsb' 10 4 ++ imm.extractLsb' 0 10 = imm := by
  apply BitVec.eq_of_getLsbD_eq
  intro i hi
  simp only [BitVec.getLsbD_append, BitVec.getLsbD_extractLsb']
  by_cases h : i < 10
  · simp [h]
  · simp [h, show i - 10 < 4 by omega, show 10 + (i - 10) = i by omega]

/-- What it takes for a word to decode. -/
theorem decode_eq_ok {w : Word} {i : Instr} (h : decode w = .ok i) :
    ∃ op, Opcode.ofNumber (opField w) = some op ∧ fieldsLegal op w = true ∧ op.build w = i := by
  unfold decode at h
  split at h
  · simp at h
  · rename_i op hop
    split at h
    · rename_i hf
      exact ⟨op, hop, hf, by simpa using h⟩
    · simp at h

theorem decode_of_legal {w : Word} {op : Opcode} (h : Opcode.ofNumber (opField w) = some op)
    (hf : fieldsLegal op w = true) : decode w = .ok (op.build w) := by
  simp [decode, h, hf]

end Sys2Proof
end

