-- ==== Sys2Proof/Laws/Operands.lean ====
section
/-! SUPPORT. Laws/Operands.lean: the length checks as statements write them (10_state.md R29), and the elements of a written matrix
register (R28). -/

namespace Sys2Proof.Machine

theorem legalLen_iff {n : BitVec 4} : legalLen n = true ↔ LegalLen n := by
  simp [legalLen, LegalLen]

theorem legal_iff {r : MatReg} : r.legal = true ↔ LegalShape r := by
  simp [MatReg.legal, LegalShape, legalLen_iff]

theorem legalLen_of {n : BitVec 4} (h : LegalLen n) : legalLen n = true := legalLen_iff.2 h
theorem legalLen_of_not {n : BitVec 4} (h : ¬ LegalLen n) : legalLen n = false := by
  rw [← legalLen_iff] at h; simpa using h
theorem legal_of {r : MatReg} (h : LegalShape r) : r.legal = true := legal_iff.2 h
theorem legal_of_not {r : MatReg} (h : ¬ LegalShape r) : r.legal = false := by
  rw [← legal_iff] at h; simpa using h

theorem toNat_eq_six {n : BitVec 4} : n.toNat = 6 ↔ n = 6#4 :=
  ⟨fun h => BitVec.eq_of_toNat_eq h, fun h => by rw [h]; rfl⟩
theorem toNat_eq_ten {n : BitVec 4} : n.toNat = 10 ↔ n = 10#4 :=
  ⟨fun h => BitVec.eq_of_toNat_eq h, fun h => by rw [h]; rfl⟩
theorem legalLen_six : LegalLen 6#4 := by constructor <;> decide
theorem legalLen_ten : LegalLen 10#4 := by constructor <;> decide

/-- VENUM's check (30_encoding.md R83) in the statements' words. -/
theorem immInRange_iff {size : BitVec 4} {index : BitVec 10} :
    immInRange size index = true ↔ LegalLen size ∧ index.toNat < 2 ^ size.toNat := by
  simp [immInRange, LegalLen, and_assoc]

/-- The elements of a written matrix: those of the result, and 0 outside its shape. -/
@[simp] theorem MatReg.bits_ofBits (h w : BitVec 4) (A : BitMatrix) (i j : Nat) :
    (MatReg.ofBits h w A).bits i j =
      (decide (i < 10) && decide (i < h.toNat) && decide (j < w.toNat) && decide (j < 10) && A i j) := by
  simp only [MatReg.bits, MatReg.ofBits]
  by_cases hi : i < 10
  · simp only [Vector.getElem?_ofFn, hi, dif_pos, Option.getD_some]
    split
    · rename_i hh
      rw [pack_getLsbD]
      simp [hh]
    · rename_i hh
      simp [hh]
  · simp [hi]

@[simp] theorem MatReg.height_ofBits (h w : BitVec 4) (A : BitMatrix) : (MatReg.ofBits h w A).height = h := rfl
@[simp] theorem MatReg.width_ofBits (h w : BitVec 4) (A : BitMatrix) : (MatReg.ofBits h w A).width = w := rfl

end Sys2Proof.Machine
end

