-- ==== Sys2Proof/Laws/PerInstr.lean ====
section
/-! SUPPORT. Laws/PerInstr.lean: laws of the instructions as syntax, one lemma per constructor. `LegalFields`: the word of an
instruction carries its opcode's number and passes the field check of 30_encoding.md R85. -/

namespace Sys2Proof.Laws.LegalFields

def Statement (i : Instr) : Prop :=
  opField (encode i) = i.opcode.number ∧ fieldsLegal i.opcode (encode i) = true

/-- An encoding whose fields each class accepts is legal. -/
theorem of_fields {i : Instr} {d a b : BitVec 4} {imm : BitVec 14} (h : encode i = encodeFields i.opcode d a b imm)
    (hd : i.opcode.dClass.accepts d = true) (ha : i.opcode.aClass.accepts a = true)
    (hb : i.opcode.bClass.accepts b = true) (himm : (i.opcode.usesImm || decide (imm.toNat = 0)) = true) :
    Statement i := by
  rw [Statement, h]
  simp only [opField_encodeFields, fieldsLegal, dField_encodeFields, aField_encodeFields, bField_encodeFields,
    immField_encodeFields, hd, ha, hb, himm, Bool.and_self, and_self]

theorem accepts_matrix (i : MIdx) : OperandClass.matrix.accepts (regField i) = true := by revert i; decide
theorem accepts_soft (i : SIdx) : OperandClass.soft.accepts (regField i) = true := by revert i; decide

theorem nop : Statement .nop := of_fields rfl rfl rfl rfl rfl
theorem vmul (d a : VIdx) (b : MIdx) : Statement (.vmul d a b) := of_fields rfl rfl rfl (accepts_matrix b) rfl
theorem mmul (d a b : MIdx) : Statement (.mmul d a b) :=
  of_fields rfl (accepts_matrix d) (accepts_matrix a) (accepts_matrix b) rfl
theorem trans (d a : MIdx) : Statement (.trans d a) := of_fields rfl (accepts_matrix d) (accepts_matrix a) rfl rfl
theorem venum (d : VIdx) (size : BitVec 4) (index : BitVec 10) : Statement (.venum d size index) :=
  of_fields rfl rfl rfl rfl rfl
theorem gload (a : MIdx) : Statement (.gload a) := of_fields rfl rfl (accepts_matrix a) rfl rfl
theorem gread (d : MIdx) : Statement (.gread d) := of_fields rfl (accepts_matrix d) rfl rfl rfl
theorem enc (d a : VIdx) : Statement (.enc d a) := of_fields rfl rfl rfl rfl rfl
theorem cblook (d a : VIdx) : Statement (.cblook d a) := of_fields rfl rfl rfl rfl rfl
theorem hdist (a b : VIdx) : Statement (.hdist a b) := of_fields rfl rfl rfl rfl rfl
theorem corr (a : SIdx) (b : VIdx) : Statement (.corr a b) := of_fields rfl rfl (accepts_soft a) rfl rfl
theorem dech (d a : VIdx) : Statement (.dech d a) := of_fields rfl rfl rfl rfl rfl
theorem decs (d : VIdx) (a : SIdx) : Statement (.decs d a) := of_fields rfl rfl (accepts_soft a) rfl rfl

end Sys2Proof.Laws.LegalFields
end

