-- ==== Sys2Proof/Laws/Results.lean ====
section
/-! SUPPORT. Laws/Results.lean: the next state of each command on operands that pass its checks, as an equation on the shared
writes; one lemma per command, so that no later proof unfolds a meaning. -/

namespace Sys2Proof.Machine

variable {s : State}

theorem exec_nop : exec .nop s = .next s := rfl

theorem exec_vmul {d a : VIdx} {b : MIdx} (hx : LegalLen (s.readV a).len) (hA : LegalShape (s.readM b))
    (h : (s.readV a).len = (s.readM b).height) :
    exec (.vmul d a b) s = .next (s.writeV d (s.readM b).width
      (vm (s.readM b).height.toNat (s.readV a).bits (s.readM b).bits)) := by
  simp only [exec, execVmul, legalLen_of (h ▸ hx), legal_of hA, h, ne_eq, not_true_eq_false, Bool.not_true,
    Bool.false_eq_true, if_false]

theorem exec_mmul {d a b : MIdx} (hA : LegalShape (s.readM a)) (hB : LegalShape (s.readM b))
    (h : (s.readM a).width = (s.readM b).height) :
    exec (.mmul d a b) s = .next (s.writeM d (s.readM a).height (s.readM b).width
      (mm (s.readM a).width.toNat (s.readM a).bits (s.readM b).bits)) := by
  simp only [exec, execMmul, legal_of hA, legal_of hB, h, ne_eq, not_true_eq_false, Bool.not_true,
    Bool.false_eq_true, if_false]

theorem exec_trans {d a : MIdx} (hA : LegalShape (s.readM a)) :
    exec (.trans d a) s = .next (s.writeM d (s.readM a).width (s.readM a).height (tr (s.readM a).bits)) := by
  simp only [exec, execTrans, legal_of hA, Bool.not_true, Bool.false_eq_true, if_false]

theorem exec_venum {d : VIdx} {size : BitVec 4} {index : BitVec 10} (hs : LegalLen size)
    (hi : index.toNat < 2 ^ size.toNat) :
    exec (.venum d size index) s = .next (s.writeV d size (enumVec size.toNat index.toNat)) := by
  simp only [exec, execVenum, legalLen_of hs, Nat.not_le.2 hi, Bool.not_true, Bool.false_eq_true, if_false]

theorem exec_gload {a : MIdx} (hh : (s.readM a).height = 6#4) (hw : (s.readM a).width = 10#4)
    (hi : InjectiveCode (s.readM a).bits) :
    exec (.gload a) s = .next (s.installCode (s.readM a).bits) := by
  have hA : LegalShape (s.readM a) := by constructor <;> simp [hh, hw, legalLen_six, legalLen_ten]
  simp only [exec, execGload, legal_of hA, (injective_build_iff _).2 hi, toNat_eq_six, toNat_eq_ten, hh, hw,
    sourceLen, codeLen, ne_eq, not_true_eq_false, or_self, Bool.not_true, Bool.false_eq_true, if_false]

theorem exec_gread {d : MIdx} (h : s.cfg = true) :
    exec (.gread d) s = .next (s.writeM d 6#4 10#4 (genBits s.g)) := by
  simp only [exec, execGread, h, Bool.not_true, Bool.false_eq_true, if_false]

theorem exec_enc {d a : VIdx} (h : s.cfg = true) (hl : (s.readV a).len = 6#4) :
    exec (.enc d a) s = .next (s.writeV d 10#4 (vm 6 (s.readV a).bits (genBits s.g))) := by
  simp only [exec, execEnc, h, hl, legalLen_of legalLen_six, toNat_eq_six, sourceLen, ne_eq, not_true_eq_false,
    Bool.not_true, Bool.false_eq_true, if_false]

/-- CBLOOK answers the least entry that holds the codeword. -/
theorem exec_cblook {d a : VIdx} {e : Nat} (h : s.cfg = true) (hl : (s.readV a).len = 10#4) (he : e < 64)
    (hcw : cwAt s.cb e = (s.readV a).data) (hleast : ∀ f < e, cwAt s.cb f ≠ (s.readV a).data) :
    exec (.cblook d a) s = .next ((s.writeV d 6#4 (srcAt s.cb e).getLsbD).writeIdx e) := by
  have hf : findFrom (fun e => cwAt s.cb e == (s.readV a).data) 0 codebookSize = some e := by
    cases hk : findFrom (fun e => cwAt s.cb e == (s.readV a).data) 0 codebookSize with
    | none =>
      have := findFrom_none.1 hk e (Nat.zero_le _) (by simpa using he)
      simp [hcw] at this
    | some k =>
      obtain ⟨-, -, hp, hl⟩ := findFrom_some hk
      have hp' : cwAt s.cb k = (s.readV a).data := by simpa using hp
      rcases Nat.lt_trichotomy k e with hlt | heq | hgt
      · exact absurd hp' (hleast k hlt)
      · rw [heq]
      · have := hl e (Nat.zero_le _) hgt
        simp [hcw] at this
  simp only [exec, execCblook, h, hl, hf, legalLen_of legalLen_ten, toNat_eq_ten, codeLen, ne_eq, not_true_eq_false,
    Bool.not_true, Bool.false_eq_true, if_false]

theorem exec_hdist {a b : VIdx} (hx : LegalLen (s.readV a).len) (h : (s.readV a).len = (s.readV b).len) :
    exec (.hdist a b) s = .next (s.writeRes (BitVec.ofNat 32 (popcount ((s.readV a).data ^^^ (s.readV b).data)))) := by
  simp only [exec, execHdist, legalLen_of hx, ← h, ne_eq, not_true_eq_false, Bool.not_true, Bool.false_eq_true, if_false]

theorem exec_corr {a : SIdx} {b : VIdx} (hx : LegalLen (s.readS a).len) (h : (s.readS a).len = (s.readV b).len) :
    exec (.corr a b) s = .next (s.writeRes (BitVec.ofInt 32
      (corr (s.readS a).len.toNat ((s.readS a).value s.config) (s.readV b).bits))) := by
  simp only [exec, execCorr, legalLen_of hx, ← h, ne_eq, not_true_eq_false, Bool.not_true, Bool.false_eq_true, if_false]

theorem exec_dech {d a : VIdx} (h : s.cfg = true) (hl : (s.readV a).len = 10#4) :
    exec (.dech d a) s =
      .next (((s.writeV d 10#4 (cwAt s.cb (hardDecision s.cb (s.readV a).bits).1).getLsbD).writeRes
        (BitVec.ofNat 32 (hardDecision s.cb (s.readV a).bits).2)).writeIdx (hardDecision s.cb (s.readV a).bits).1) := by
  simp only [exec, execDech, h, hl, legalLen_of legalLen_ten, toNat_eq_ten, codeLen, ne_eq, not_true_eq_false,
    Bool.not_true, Bool.false_eq_true, if_false]

theorem exec_decs {d : VIdx} {a : SIdx} (h : s.cfg = true) (hl : (s.readS a).len = 10#4) :
    exec (.decs d a) s =
      .next (((s.writeV d 10#4
        (cwAt s.cb (softDecision s.cb ((s.readS a).value s.config)).1).getLsbD).writeRes
        (BitVec.ofInt 32 (softDecision s.cb ((s.readS a).value s.config)).2)).writeIdx
        (softDecision s.cb ((s.readS a).value s.config)).1) := by
  simp only [exec, execDecs, h, hl, legalLen_of legalLen_ten, toNat_eq_ten, codeLen, ne_eq, not_true_eq_false,
    Bool.not_true, Bool.false_eq_true, if_false]

/-! The two decisions, in the statements' words (42_decoders.md R123, R124). -/

/-- The hard decision is the first entry of least distance. -/
theorem hardDecision_spec (cb : Codebook) (r : Bits) :
    let p := hardDecision cb r
    p.1 < 64 ∧ p.2 = distance 10 (cwAt cb p.1).getLsbD r ∧
      (∀ f < 64, distance 10 (cwAt cb p.1).getLsbD r ≤ distance 10 (cwAt cb f).getLsbD r) ∧
      ∀ f < p.1, distance 10 (cwAt cb p.1).getLsbD r < distance 10 (cwAt cb f).getLsbD r := by
  obtain ⟨h1, h2, h3, h4⟩ := firstBest_min (fun e => hd codeLen (cwAt cb e).getLsbD r) 63
  simp only [hd_eq_distance] at h1 h2 h3 h4
  refine ⟨?_, ?_, fun f hf => ?_, fun f hf => ?_⟩ <;> simp only [hardDecision, hd_eq_distance, codeLen]
  · exact Nat.lt_succ_of_le h2
  · exact h1
  · exact h3 f (by omega)
  · simp only [hardDecision, hd_eq_distance] at hf
    exact h4 f hf

/-- The soft decision is the first entry of greatest correlation. -/
theorem softDecision_spec (cb : Codebook) (x : Nat → Int) :
    let p := softDecision cb x
    p.1 < 64 ∧ p.2 = correlation 10 x (cwAt cb p.1).getLsbD ∧
      (∀ f < 64, correlation 10 x (cwAt cb f).getLsbD ≤ correlation 10 x (cwAt cb p.1).getLsbD) ∧
      ∀ f < p.1, correlation 10 x (cwAt cb f).getLsbD < correlation 10 x (cwAt cb p.1).getLsbD := by
  obtain ⟨h1, h2, h3, h4⟩ := firstBest_max (fun e => corr codeLen x (cwAt cb e).getLsbD) 63
  simp only [corr_eq_correlation] at h1 h2 h3 h4
  refine ⟨?_, ?_, fun f hf => ?_, fun f hf => ?_⟩ <;> simp only [softDecision, corr_eq_correlation, codeLen]
  · exact Nat.lt_succ_of_le h2
  · exact h1
  · exact h3 f (by omega)
  · simp only [softDecision, corr_eq_correlation] at hf
    exact h4 f hf

/-! Scores are exact in 32 bits (10_state.md R31). -/

/-- A sample lies in the two's-complement range of SW bits. -/
theorem sampleValue_bounds {c : Config} (hc : configLegal c = true) (w : Word) :
    -2 ^ 26 ≤ sampleValue c w ∧ sampleValue c w ≤ 2 ^ 26 := by
  have h1 : 2 ≤ c.sw ∧ c.sw ≤ 27 := by
    simp only [configLegal, Bool.and_eq_true, decide_eq_true_eq] at hc
    exact hc.1
  obtain ⟨n, hn⟩ : ∃ n, c.sw = n + 1 := ⟨c.sw - 1, by omega⟩
  have hp : (2 : Int) ^ n ≤ 2 ^ 26 := by
    exact_mod_cast Nat.pow_le_pow_right (n := 2) (by omega) (show n ≤ 26 by omega)
  have hl := BitVec.le_toInt (x := w.setWidth c.sw)
  have hu := BitVec.toInt_lt (x := w.setWidth c.sw)
  simp only [sampleValue]
  rw [hn] at hl hu ⊢
  simp only [Nat.add_sub_cancel] at hl hu
  omega

theorem correlation_bounds {x : Nat → Int} {B : Int} (h : ∀ k, -B ≤ x k ∧ x k ≤ B) (n : Nat) (c : Bits) :
    -(n * B) ≤ correlation n x c ∧ correlation n x c ≤ n * B := by
  rw [← corr_eq_correlation]
  induction n with
  | zero => simp [corr, intSum]
  | succ n ih =>
    simp only [corr, intSum] at ih ⊢
    have hx := h n
    have hm : ((n + 1 : Nat) : Int) * B = n * B + B := by push_cast; ring
    rw [hm]
    cases c n <;> simp only [Bool.false_eq_true, if_false, if_true] <;> constructor <;> omega

/-- A score of at most ten samples survives the 32-bit register. -/
theorem toInt_ofInt_correlation {s : State} (hc : configLegal s.config = true) (r : SoftReg) {n : Nat} (hn : n ≤ 10)
    (c : Bits) :
    (BitVec.ofInt 32 (correlation n (r.value s.config) c)).toInt = correlation n (r.value s.config) c := by
  have hb := correlation_bounds (x := r.value s.config) (B := 2 ^ 26) (fun k => sampleValue_bounds hc _) n c
  rw [BitVec.toInt_ofInt]
  have : (n : Int) * 2 ^ 26 ≤ 10 * 2 ^ 26 := by
    have : (n : Int) ≤ 10 := by omega
    omega
  apply Int.bmod_eq_of_le <;> omega

end Sys2Proof.Machine
end

