-- ==== Sys2Proof/Laws/Run.lean ====
section
/-! SUPPORT. Laws/Run.lean: runs of several steps, and what every turn leaves alone. -/

namespace Sys2Proof.Machine

/-- One step of a run. -/
theorem run_succ_of_next {s t : State} (n : Nat) (h : step s = .next t) :
    Host.Core.run Sys2Proof.core (n + 1) s = Host.Core.run Sys2Proof.core n t := by
  have h' : Sys2Proof.core.step s = .next t := h
  simp only [Host.Core.run, h']

@[simp] theorem run_zero (s : State) : Host.Core.run Sys2Proof.core 0 s = .next s := rfl

/-- A run of two steps. -/
theorem run_two {s t u : State} (h : step s = .next t) (h' : step t = .next u) :
    Host.Core.run Sys2Proof.core 2 s = .next u := by
  rw [run_succ_of_next 1 h, run_succ_of_next 0 h', run_zero]

theorem storeReg_config (s : State) (w : Word) (r : WinReg) : (s.storeReg w r).config = s.config := by
  cases r <;> simp only [State.storeReg, State.offerCommand, State.control] <;> (try split_ifs) <;> rfl

theorem accessEffect_config (s : State) (a : Access) : (accessEffect s a).config = s.config := by
  cases a with
  | read => rfl
  | write off size w =>
    simp only [accessEffect]
    split
    · exact storeReg_config _ _ _
    · rfl

/-- A sequencer's turn leaves the configuration and the host's side alone. -/
theorem sequencerStep_frame {s u : State} (h : sequencerStep s = .next u) : u.config = s.config ∧ u.host = s.host := by
  rcases sequencerStep_cases s with ⟨-, h'⟩ | ⟨w, t, -, h', hc⟩
  · rw [h'] at h
    obtain rfl : s = u := by simpa using h
    exact ⟨rfl, rfl⟩
  · rw [h'] at h
    obtain rfl : t.retire = u := by simpa using h
    rcases hc with ⟨c, rfl⟩ | ⟨i, -, he⟩
    · exact ⟨rfl, rfl⟩
    · exact ⟨he.frame.2.2.2.2.2.2.2.1, he.frame.2.2.2.2.2.2.2.2⟩

/-- No turn changes the configuration (10_state.md R40). -/
theorem takeTurn_config {t : Turn} {s u : State} (h : takeTurn t s = .next u) : u.config = s.config := by
  cases t with
  | host a =>
    obtain rfl : hostAccess a s = u := by simpa [takeTurn] using h
    exact accessEffect_config s a
  | sequencer => exact (sequencerStep_frame h).1
  | hardReset cut =>
    obtain rfl : hardReset cut s = u := by simpa [takeTurn] using h
    rfl

/-- A turn leaves the turns after it as they were. -/
theorem takeTurn_agenda {t : Turn} {s u : State} (h : takeTurn t s = .next u) : u.host.agenda = s.host.agenda := by
  cases t with
  | host a =>
    obtain rfl : hostAccess a s = u := by simpa [takeTurn] using h
    rfl
  | sequencer => rw [(sequencerStep_frame h).2]
  | hardReset cut =>
    obtain rfl : hardReset cut s = u := by simpa [takeTurn] using h
    rfl

end Sys2Proof.Machine
end

