-- ==== Sys2Proof/Tests/Slice0.lean ====
section
/-! SUPPORT. Tests/Slice0.lean: tests whose expected values stand in the spec (95_test_vectors.md, 30_encoding.md R89 and the
worked examples of the command rules), one step each but for the races, and the witnesses that the hypotheses of the
obligations can be met. -/

namespace Sys2Proof.Tests

open Sys2Proof.Machine

/-! ## The example code G_EX -/

/-- G_EX (95_test_vectors.md section 1). -/
def gEx : GenRows := #v[0x0C1#10, 0x142#10, 0x244#10, 0x188#10, 0x290#10, 0x320#10]

/-- Entries 0 to 15 of the codebook of G_EX, copied from the table of 95_test_vectors.md section 1. -/
def cbEx0 : Vector CbEntry 16 := #v[
  ⟨0x000#10, 0x00#6⟩, ⟨0x320#10, 0x20#6⟩, ⟨0x290#10, 0x10#6⟩, ⟨0x1B0#10, 0x30#6⟩, ⟨0x188#10, 0x08#6⟩, ⟨0x2A8#10,
  0x28#6⟩, ⟨0x318#10, 0x18#6⟩, ⟨0x038#10, 0x38#6⟩, ⟨0x244#10, 0x04#6⟩, ⟨0x164#10, 0x24#6⟩, ⟨0x0D4#10, 0x14#6⟩,
  ⟨0x3F4#10, 0x34#6⟩, ⟨0x3CC#10, 0x0C#6⟩, ⟨0x0EC#10, 0x2C#6⟩, ⟨0x15C#10, 0x1C#6⟩, ⟨0x27C#10, 0x3C#6⟩]

/-- Entries 16 to 31 of the codebook of G_EX, copied from the table of 95_test_vectors.md section 1. -/
def cbEx1 : Vector CbEntry 16 := #v[
  ⟨0x142#10, 0x02#6⟩, ⟨0x262#10, 0x22#6⟩, ⟨0x3D2#10, 0x12#6⟩, ⟨0x0F2#10, 0x32#6⟩, ⟨0x0CA#10, 0x0A#6⟩, ⟨0x3EA#10,
  0x2A#6⟩, ⟨0x25A#10, 0x1A#6⟩, ⟨0x17A#10, 0x3A#6⟩, ⟨0x306#10, 0x06#6⟩, ⟨0x026#10, 0x26#6⟩, ⟨0x196#10, 0x16#6⟩,
  ⟨0x2B6#10, 0x36#6⟩, ⟨0x28E#10, 0x0E#6⟩, ⟨0x1AE#10, 0x2E#6⟩, ⟨0x01E#10, 0x1E#6⟩, ⟨0x33E#10, 0x3E#6⟩]

/-- Entries 32 to 47 of the codebook of G_EX, copied from the table of 95_test_vectors.md section 1. -/
def cbEx2 : Vector CbEntry 16 := #v[
  ⟨0x0C1#10, 0x01#6⟩, ⟨0x3E1#10, 0x21#6⟩, ⟨0x251#10, 0x11#6⟩, ⟨0x171#10, 0x31#6⟩, ⟨0x149#10, 0x09#6⟩, ⟨0x269#10,
  0x29#6⟩, ⟨0x3D9#10, 0x19#6⟩, ⟨0x0F9#10, 0x39#6⟩, ⟨0x285#10, 0x05#6⟩, ⟨0x1A5#10, 0x25#6⟩, ⟨0x015#10, 0x15#6⟩,
  ⟨0x335#10, 0x35#6⟩, ⟨0x30D#10, 0x0D#6⟩, ⟨0x02D#10, 0x2D#6⟩, ⟨0x19D#10, 0x1D#6⟩, ⟨0x2BD#10, 0x3D#6⟩]

/-- Entries 48 to 63 of the codebook of G_EX, copied from the table of 95_test_vectors.md section 1. -/
def cbEx3 : Vector CbEntry 16 := #v[
  ⟨0x183#10, 0x03#6⟩, ⟨0x2A3#10, 0x23#6⟩, ⟨0x313#10, 0x13#6⟩, ⟨0x033#10, 0x33#6⟩, ⟨0x00B#10, 0x0B#6⟩, ⟨0x32B#10,
  0x2B#6⟩, ⟨0x29B#10, 0x1B#6⟩, ⟨0x1BB#10, 0x3B#6⟩, ⟨0x3C7#10, 0x07#6⟩, ⟨0x0E7#10, 0x27#6⟩, ⟨0x157#10, 0x17#6⟩,
  ⟨0x277#10, 0x37#6⟩, ⟨0x24F#10, 0x0F#6⟩, ⟨0x16F#10, 0x2F#6⟩, ⟨0x0DF#10, 0x1F#6⟩, ⟨0x3FF#10, 0x3F#6⟩]

/-- The codebook of G_EX, as the spec's table gives it. -/
def cbEx : Codebook := cbEx0 ++ cbEx1 ++ cbEx2 ++ cbEx3

/-- GLOAD's computation on G_EX gives the spec's table (E11). -/
theorem test_codebook_of_gEx : buildCodebook (genBits gEx) = cbEx := by decide +kernel
theorem test_gEx_is_injective : injective cbEx = true := by decide +kernel
theorem test_dmin_of_gEx : minDistance cbEx = 3 := by decide +kernel

/-! ## Helpers -/

/-- The next state of an outcome; the reset state where there is none. -/
def nextState : Host.Outcome State Fault Refusal → State
  | .next s => s
  | .fault _ => State.reset
  | .refused _ => State.reset

/-- A matrix register of the first rows given. -/
def matOf (dims : Word) (rows : List Packed) : MatReg where
  rows := Vector.ofFn fun r => rows.getD r.val 0#10
  height := dims.extractLsb' 0 4
  width := dims.extractLsb' 8 4

/-- A soft register holding these samples, ten at most. -/
def softOf (c : Config) (len : BitVec 4) (xs : List Int) : SoftReg where
  samples := Vector.ofFn fun k => storedSample c (BitVec.ofInt 32 (xs.getD k.val 0))
  len := len

/-- After reset and GLOAD of G_EX: "CFG" of 95_test_vectors.md section 3. -/
def configured : State :=
  { State.reset with
    m := State.reset.m.set 0 (matOf 0x00000A06#32 [0x0C1, 0x142, 0x244, 0x188, 0x290, 0x320])
    g := gEx
    cb := cbEx
    dmin := 3#4
    cfg := true }

/-- The command word accepted and performed: one step. -/
def performed (w : Word) (s : State) : State := nextState (step (s.withFetchWord 32 w.toNat))

/-- A run over these turns, one step each. -/
def turns (ts : List Turn) (s : State) : State :=
  nextState (Host.Core.run Sys2Proof.core ts.length (s.withHost { s.host with agenda := ts }))

/-- The turn of a host write. -/
def wr (off : Nat) (w : Word) : Turn := .host (.write off 4 w)

/-! ## WellFormed: each check refuses an ill-formed term (30_encoding.md R83) -/

theorem test_wellFormed_accepts_bounds :
    (Instr.venum 1 1 1).wellFormed = true ∧ (Instr.venum 1 10 1023).wellFormed = true := by decide
theorem test_wellFormed_refuses_size_zero : (Instr.venum 1 0 0).wellFormed = false := by decide
theorem test_wellFormed_refuses_size_eleven : (Instr.venum 1 11 0).wellFormed = false := by decide
theorem test_wellFormed_refuses_index : (Instr.venum 1 3 8).wellFormed = false := by decide

/-! ## Decoding: words written out bit by bit as op, d, a, b, imm (30_encoding.md R81, R84, R89) -/

theorem test_decode_nop : decode 0b000000_0000_0000_0000_00000000000000#32 = .ok .nop := by decide
theorem test_decode_vmul : decode 0b000001_0010_0001_0011_00000000000000#32 = .ok (.vmul 2 1 3) := by decide
theorem test_decode_mmul : decode 0b000010_0010_0000_0001_00000000000000#32 = .ok (.mmul 2 0 1) := by decide
theorem test_decode_trans : decode 0b000011_0001_0000_0000_00000000000000#32 = .ok (.trans 1 0) := by decide
theorem test_decode_venum : decode 0b000100_0001_0000_0000_0110_0000100000#32 = .ok (.venum 1 6 32) := by decide
theorem test_decode_gload : decode 0b000101_0000_0011_0000_00000000000000#32 = .ok (.gload 3) := by decide
theorem test_decode_gread : decode 0b000110_0011_0000_0000_00000000000000#32 = .ok (.gread 3) := by decide
theorem test_decode_enc : decode 0b000111_0010_0001_0000_00000000000000#32 = .ok (.enc 2 1) := by decide
theorem test_decode_cblook : decode 0b001000_0100_0011_0000_00000000000000#32 = .ok (.cblook 4 3) := by decide
theorem test_decode_hdist : decode 0b001001_0000_0010_0011_00000000000000#32 = .ok (.hdist 2 3) := by decide
theorem test_decode_corr : decode 0b001010_0000_0001_0010_00000000000000#32 = .ok (.corr 1 2) := by decide
theorem test_decode_dech : decode 0b001011_0011_0010_0000_00000000000000#32 = .ok (.dech 3 2) := by decide
theorem test_decode_decs : decode 0b001100_0101_0001_0000_00000000000000#32 = .ok (.decs 5 1) := by decide

/-- R89 as the spec prints it. -/
theorem test_worked_encodings :
    encode (.vmul 2 1 3) = 0x0484C000#32 ∧ encode (.venum 1 6 32) = 0x10401820#32 ∧
    encode (.cblook 4 3) = 0x210C0000#32 ∧ encode (.decs 5 1) = 0x31440000#32 := by decide

/-- The opcode is checked first, then the fields (section 3.6 codes 1 and 2; L7, L18, E18, E29, D7, D16, D33). -/
theorem test_reserved_words :
    decode 0x34000000#32 = .error .illegalOpcode ∧ decode 0xFFFFFFFF#32 = .error .illegalOpcode ∧
    decode 0x00400000#32 = .error .reservedField ∧ decode 0x00000001#32 = .error .reservedField ∧
    decode 0x04850000#32 = .error .reservedField ∧ decode 0x0C404000#32 = .error .reservedField ∧
    decode 0x10440000#32 = .error .reservedField ∧ decode 0x14400000#32 = .error .reservedField ∧
    decode 0x1C840001#32 = .error .reservedField ∧ decode 0x2448C000#32 = .error .reservedField ∧
    decode 0x28108000#32 = .error .reservedField ∧ decode 0x30404000#32 = .error .reservedField := by decide

theorem test_decodeTableWord :
    decodeTableWord 32 0x2CC80000 = some (.dech 3 2) ∧ decodeTableWord 32 0x34000000 = none := by decide

/-! ## The assembler's text (30_encoding.md R87, R89) -/

theorem test_asm_text : asmLine (.venum 1 6 32) = "VENUM v1, 6, 32" ∧ asmLine .nop = "NOP" := by decide

/-! ## Commands (95_test_vectors.md sections 3.2 to 3.5) -/

/-- Q1. -/
theorem test_nop :
    (State.reset.memWrite 0x004 0#32).memRead 0x008 = 1#32 ∧ (performed 0#32 State.reset).memRead 0x008 = 0#32 := by
  decide

/-- L1. -/
theorem test_vmul :
    (performed 0x0484C000#32
      ((State.reset.memWrite 0x044 0x00030003#32).writeM 3 3 2 (matOf 0x203#32 [1, 3, 2]).bits)).memRead 0x048 =
        0x00020002#32 := by decide
/-- L5. -/
theorem test_vmul_mismatch :
    (performed 0x0484C000#32
      ((State.reset.memWrite 0x044 0x00020003#32).writeM 3 3 2 (matOf 0x203#32 [1, 3, 2]).bits)).errCode = 5#4 := by
  decide

/-- L10: all three operands one register, stale rows cleared. -/
theorem test_mmul_in_place :
    (performed 0x08000000#32
      { State.reset with
        m := State.reset.m.set 0 (matOf 0x202#32 [3, 2, 9, 9, 9, 9, 9, 9, 9, 9]) }).readM 0 = matOf 0x202#32 [1, 2] := by
  decide
/-- L11. -/
theorem test_mmul_mismatch :
    (performed 0x08804000#32
      { State.reset with m := #v[matOf 0x202#32 [3, 2], matOf 0x203#32 [1, 3, 2], MatReg.zero, MatReg.zero] }).errCode =
        5#4 := by decide

/-- L15: a row becomes a column, in place. -/
theorem test_trans_in_place :
    (performed 0x0C000000#32
      { State.reset with m := State.reset.m.set 0 (matOf 0x301#32 [5, 7, 7, 7, 7, 7, 7, 7, 7, 7]) }).readM 0 =
        matOf 0x103#32 [1, 0, 1] := by decide
/-- L17. -/
theorem test_trans_unwritten : (performed 0x0C480000#32 State.reset).errCode = 4#4 := by decide

/-- E3. -/
theorem test_venum : (performed 0x1040180D#32 State.reset).memRead 0x044 = 0x0006002C#32 := by decide
/-- E7, E8, E9 and E10: fields before the immediate. -/
theorem test_venum_range :
    (performed 0x10400000#32 State.reset).errCode = 6#4 ∧ (performed 0x10402C00#32 State.reset).errCode = 6#4 ∧
    (performed 0x10400C08#32 State.reset).errCode = 6#4 ∧ (performed 0x10440000#32 State.reset).errCode = 2#4 := by
  decide

/-- E11: the whole configured state from the reset state with G_EX in M[0]. -/
theorem test_gload :
    let s := performed 0x14000000#32 { State.reset with m := configured.m }
    s.g = gEx ∧ s.cb = cbEx ∧ s.dmin = 3#4 ∧ s.memRead 0x008 = 0x00000008#32 := by decide +kernel
/-- E12: row 5 is 0; the code stays as it was. -/
theorem test_gload_not_injective :
    let s := performed 0x14040000#32
      { configured with m := configured.m.set 1 (matOf 0xA06#32 [0x0C1, 0x142, 0x244, 0x188, 0x290, 0]) }
    s.memRead 0x008 = 0x0000070A#32 ∧ s.g = gEx ∧ s.dmin = 3#4 := by decide +kernel

/-- E19. -/
theorem test_gread :
    (performed 0x18C00000#32 configured).readM 3 = matOf 0xA06#32 [0x0C1, 0x142, 0x244, 0x188, 0x290, 0x320] := by
  decide
/-- E20. -/
theorem test_gread_not_configured : (performed 0x18000000#32 State.reset).memRead 0x008 = 0x00000302#32 := by decide

/-- E22: in place. -/
theorem test_enc_in_place :
    (performed 0x1C440000#32 (configured.memWrite 0x044 0x0006002C#32)).memRead 0x044 = 0x000A00EC#32 := by decide
/-- E25 and E26. -/
theorem test_enc_faults :
    (performed 0x1C840000#32 State.reset).errCode = 3#4 ∧
    (performed 0x1C840000#32 configured).memRead 0x008 = 0x0000040A#32 := by decide

/-- E30. -/
theorem test_cblook :
    let s := performed 0x210C0000#32 (configured.memWrite 0x04C 0x000A0251#32)
    s.memRead 0x050 = 0x00060011#32 ∧ s.memRead 0x014 = 34#32 := by decide
/-- E33 and E34. -/
theorem test_cblook_faults :
    (performed 0x210C0000#32 (configured.memWrite 0x04C 0x000A0001#32)).errCode = 8#4 ∧
    (performed 0x210C0000#32 (configured.memWrite 0x04C 0x00090001#32)).errCode = 5#4 := by decide

/-- D3. -/
theorem test_hdist :
    (performed 0x2408C000#32 ((State.reset.memWrite 0x048 0x000A00C1#32).memWrite 0x04C 0x000A033E#32)).memRead 0x010 =
      10#32 := by decide
/-- M7: a length above 10 is stored and faults. -/
theorem test_hdist_illegal_length :
    (performed 0x24000000#32 (State.reset.memWrite 0x040 0xFFFCFFFF#32)).errCode = 4#4 := by decide

/-- D9: a negative score. -/
theorem test_corr :
    (performed 0x28008000#32
      ({ State.reset with
          soft := State.reset.soft.set 0
            (softOf State.reset.config 10 [100, -90, -110, -95, -105, -100, 80, 120, -100, -90]) }.memWrite
        0x048 0x000A033E#32)).memRead 0x010 = 0xFFFFFC22#32 := by decide
/-- D12: SW = 27, no overflow. -/
theorem test_corr_widest :
    let c : Config := { sw := 27, gReset := none }
    (performed 0x28008000#32
      ({ State.resetWith c with
          soft := (State.resetWith c).soft.set 0 { samples := Vector.replicate 10 0x04000000#32, len := 10 } }.memWrite
        0x048 0x000A0000#32)).memRead 0x010 = 0x28000000#32 := by decide

/-- D18: the tie of entries 12, 18 and 33. -/
theorem test_dech_tie :
    let s := performed 0x2CC80000#32 (configured.memWrite 0x048 0x000A03C0#32)
    s.memRead 0x04C = 0x000A03CC#32 ∧ s.memRead 0x010 = 2#32 ∧ s.memRead 0x014 = 12#32 := by decide +kernel
/-- D21: in place. -/
theorem test_dech_in_place :
    let s := performed 0x2C880000#32 (configured.memWrite 0x048 0x000A0241#32)
    s.memRead 0x048 = 0x000A0251#32 ∧ s.memRead 0x010 = 1#32 ∧ s.memRead 0x014 = 34#32 := by decide +kernel

/-- D25: the soft decision differs from the hard one. -/
theorem test_decs :
    let s := performed 0x31440000#32
      { configured with
        soft := configured.soft.set 1 (softOf configured.config 10 [57, -88, -52, -58, -63, -152, 72, -19, -97, 21]) }
    s.memRead 0x054 = 0x000A00C1#32 ∧ s.memRead 0x010 = 599#32 ∧ s.memRead 0x014 = 32#32 := by decide +kernel
/-- D27: all 64 entries tie, the least is taken. -/
theorem test_decs_tie :
    let s := performed 0x31440000#32 { configured with soft := configured.soft.set 1 (softOf configured.config 10 []) }
    s.memRead 0x054 = 0x000A0000#32 ∧ s.memRead 0x010 = 0#32 ∧ s.memRead 0x014 = 0#32 := by decide +kernel

/-! ## Sequencing, the window and races (95_test_vectors.md sections 3.1 and 3.2) -/

/-- Q2: a second CMD write while BUSY is dropped and sets OVR. -/
theorem test_overrun :
    let s := turns [wr 0x004 0x10400401#32, wr 0x004 0x10800401#32] State.reset
    s.memRead 0x008 = 5#32 ∧ s.memRead 0x004 = 0x10400401#32 := by decide
/-- Q5. -/
theorem test_illegal_opcode :
    let s := performed 0x34000000#32 State.reset
    s.memRead 0x008 = 0x00000102#32 ∧ s.memRead 0x01C = 0x34000000#32 := by decide
/-- Q6 and Q7. -/
theorem test_dropped_in_error_then_reset :
    let s := performed 0x34000000#32 State.reset
    (s.memWrite 0x004 0x10400401#32).memRead 0x008 = 0x00000102#32 ∧
    (s.memWrite 0x00C 3#32).memRead 0x008 = 0#32 ∧ (s.memWrite 0x00C 3#32).memRead 0x004 = 0#32 := by decide
/-- Q10: both admitted outcomes of a host write that races with a pending ENC. -/
theorem test_race_both_orders :
    let s := (configured.memWrite 0x044 0x0006002C#32).memWrite 0x004 0x1C840000#32
    (turns [.sequencer, wr 0x044 0x00060001#32] s).memRead 0x048 = 0x000A00EC#32 ∧
    (turns [wr 0x044 0x00060001#32, .sequencer] s).memRead 0x048 = 0x000A00C1#32 := by decide
/-- M5, M6, M8 to M13. -/
theorem test_window_masks :
    (State.reset.memWrite 0x040 0x0003FFFF#32).memRead 0x040 = 0x00030007#32 ∧
    (State.reset.memWrite 0x040 0xFFFCFFFF#32).memRead 0x040 = 0x000C03FF#32 ∧
    (State.reset.memWrite 0x128 0xFFFFFFFF#32).memRead 0x128 = 0x00000F0F#32 ∧
    (State.reset.memWrite 0x100 0xFFFFFFFF#32).memRead 0x100 = 0x000003FF#32 ∧
    (State.reset.memWrite 0x200 0x12348000#32).memRead 0x200 = 0xFFFF8000#32 ∧
    (State.reset.memWrite 0x228 0xFFFFFFFF#32).memRead 0x228 = 0x0000000F#32 ∧
    (State.reset.memWrite 0x010 5#32).memRead 0x010 = 0#32 := by decide
/-- M1, M4 and the image of CB[13] (section 1). -/
theorem test_window_reads :
    State.reset.memRead 0x000 = 0x4C430A06#32 ∧ State.reset.memRead 0x12C = 0#32 ∧ State.reset.memRead 0xFFC = 0#32 ∧
    configured.memRead 0x434 = 0x002C00EC#32 := by decide
/-- M15 to M17: refused accesses. -/
theorem test_bus_errors :
    (turns [.host (.read 0x002 4)] configured).host.reply = some (.read 0#32 true) ∧
    (turns [.host (.write 0x042 4 5#32)] configured).host.reply = some (.write true) ∧
    (turns [.host (.read 0x040 2)] configured).host.reply = some (.read 0#32 true) ∧
    (turns [.host (.read 0x1000 4)] configured).host.reply = some (.read 0#32 true) ∧
    (turns [.host (.write 0x042 4 5#32)] configured).v = configured.v := by decide
/-- R57: little-endian lanes. -/
theorem test_byte_lanes : State.reset.windowByte 0x000 = 0x06#8 ∧ State.reset.windowByte 0x003 = 0x4C#8 := by decide
/-- R182: reset with a generator; R31, R182: configurations that are refused. -/
theorem test_configurations :
    (State.resetWith { sw := 16, gReset := some gEx }).memRead 0x008 = 8#32 ∧
    (State.resetWith { sw := 16, gReset := some gEx }).cb = cbEx ∧
    configLegal { sw := 2, gReset := some gEx } = true ∧ configLegal { sw := 27, gReset := none } = true ∧
    configLegal { sw := 1, gReset := none } = false ∧ configLegal { sw := 28, gReset := none } = false ∧
    configLegal { sw := 16, gReset := some (Vector.replicate 6 0#10) } = false := by decide +kernel

/-! ## Witnesses: states and operands that meet the hypotheses of the obligations -/

/-- A configured state with a command pending, the sequencer's turn, and operands of every kind: V[1] of length 3, V[2] a
codeword (entry 32), V[3] no codeword, V[4] of length 11, V[5] the source vector 32, V[6] of length 10 and V[7] of length 1; M[0] = G_EX,
M[1] 3 x 2, M[2] unwritten, M[3] 6 x 10 and not injective; S[1] the noiseless image of entry 32, S[2] of length 1, S[3] of
length 11. -/
def full : State :=
  { configured with
    host := { agenda := [.sequencer], reply := none, awaiting := true }
    v := (configured.v.set 1 ⟨3, 3⟩).set 2 ⟨10, 0x0C1⟩ |>.set 3 ⟨10, 0x001⟩ |>.set 4 ⟨11, 1⟩ |>.set 5 ⟨6, 1⟩ |>.set 6 ⟨10, 0x2C1⟩
      |>.set 7 ⟨1, 1⟩
    m := (configured.m.set 1 (matOf 0x203#32 [1, 3, 2])).set 3 (matOf 0xA06#32 [])
    soft := #v[SoftReg.zero, softOf configured.config 10 [7, -7, -7, -7, -7, -7, 7, 7, -7, -7],
      softOf configured.config 1 [-5], softOf configured.config 11 []]
    pend := some 0#32 }

/-- The same with CFG = 0 and the code of reset. -/
def unconfigured : State := { full with g := State.reset.g, cb := State.reset.cb, dmin := 0#4, cfg := false }

/-- A state in error: the fault of Q5 from the configured state. -/
def inError : State := performed 0x34000000#32 configured

/-- The command of `full` replaced. -/
def pending (w : Word) : State := { full with pend := some w, cmdLast := w }

theorem cbEx_codebookOf : CodebookOf gEx cbEx 3#4 := by
  have h : CodebookOf gEx (buildCodebook (genBits gEx)) (BitVec.ofNat 4 (minDistance (buildCodebook (genBits gEx)))) :=
    codebookOf_build (by rw [test_codebook_of_gEx]; exact test_gEx_is_injective)
  rw [test_codebook_of_gEx, test_dmin_of_gEx] at h
  exact h

theorem full_vectors : ∀ i : Fin 16, ∀ j : Fin 10, (full.readV i).len.toNat ≤ j.val →
    (full.readV i).data.getLsbD j.val = false := by decide
theorem full_samples : ∀ i : Fin 4, ∀ k : Fin 10, ((full.readS i).samples[k]).toNat < 2 ^ 16 := by decide

/-- A word below `2^n` has no bit at or above `n`. -/
theorem high_bits_zero {w : Word} {n j : Nat} (h : w.toNat < 2 ^ n) (hj : n ≤ j) : w.getLsbD j = false := by
  have : 2 ^ n ≤ 2 ^ j := Nat.pow_le_pow_right (by omega) hj
  exact Nat.testBit_lt_two_pow (by omega)

theorem witness_BlockInv (w : Word) : BlockInv (pending w) := by
  refine ⟨fun _ => cbEx_codebookOf, ?_, ?_, ?_, ?_, ?_, ?_, ?_, ?_⟩
  · intro h; exact absurd h (show ¬ full.cfg = false by decide)
  · intro i j h
    rcases Nat.lt_or_ge j 10 with hj | hj
    · exact full_vectors i ⟨j, hj⟩ h
    · exact BitVec.getLsbD_of_ge _ _ hj
  · intro i k j h; exact high_bits_zero (full_samples i k) h
  · intro _; exact ⟨rfl, rfl⟩
  · intro h; exact absurd h (show ¬ full.err = true by decide)
  · intro h; exact absurd h (show ¬ full.err = true by decide)
  · intro x h; simpa [pending] using h
  · intro _; rfl

/-- The state of the statements about a configured block. -/
theorem witness_full_inv : BlockInv full := witness_BlockInv 0#32
theorem witness_config : configLegal full.config = true := by decide
theorem witness_configured_flags : full.cfg = true ∧ unconfigured.cfg = false := by decide

/-- Encoding: words on each side of the bounds of R82, R83 and R85, opcode by opcode. -/
theorem witness_ReservedWordsAreRejectedByName :
    (decode 0x30000000#32).toOption.isSome = true ∧ decode 0x34000000#32 = .error .illegalOpcode ∧
    decode 0x00000000#32 = .ok .nop ∧ decode 0x00004000#32 = .error .reservedField ∧
    decode 0x0400C000#32 = .ok (.vmul 0 0 3) ∧ decode 0x04010000#32 = .error .reservedField ∧
    decode 0x08CCC000#32 = .ok (.mmul 3 3 3) ∧ decode 0x09000000#32 = .error .reservedField ∧
    decode 0x0CCC0000#32 = .ok (.trans 3 3) ∧ decode 0x0C100000#32 = .error .reservedField ∧
    decode 0x10003FFF#32 = .ok (.venum 0 15 1023) ∧ decode 0x10004000#32 = .error .reservedField ∧
    decode 0x140C0000#32 = .ok (.gload 3) ∧ decode 0x14100000#32 = .error .reservedField ∧
    decode 0x18C00000#32 = .ok (.gread 3) ∧ decode 0x19000000#32 = .error .reservedField ∧
    decode 0x1FFC0000#32 = .ok (.enc 15 15) ∧ decode 0x1FFC2000#32 = .error .reservedField ∧
    decode 0x23FC0000#32 = .ok (.cblook 15 15) ∧ decode 0x23FC4000#32 = .error .reservedField ∧
    decode 0x243FC000#32 = .ok (.hdist 15 15) ∧ decode 0x247FC000#32 = .error .reservedField ∧
    decode 0x280FC000#32 = .ok (.corr 3 15) ∧ decode 0x2813C000#32 = .error .reservedField ∧
    decode 0x2FFC0000#32 = .ok (.dech 15 15) ∧ decode 0x2FFC0001#32 = .error .reservedField ∧
    decode 0x33CC0000#32 = .ok (.decs 15 3) ∧ decode 0x33D00000#32 = .error .reservedField := by decide

/-- A pending word with a host access and the sequencer's turn to come, no reset among them; and one with nothing to come. -/
theorem witness_PendingCommandIsEventuallyPerformed :
    let s := (pending 0x10400401#32).withHost { full.host with agenda := [.host (.read 0x040 4), .sequencer] }
    configLegal s.config = true ∧ s.pend = some 0x10400401#32 ∧ (∀ cut, .hardReset cut ∉ s.host.agenda) ∧
    ∀ v : Word, v.getLsbD 0 = true → .host (.write 0x00C 4 v) ∉ s.host.agenda := by
  refine ⟨by decide, rfl, fun cut h => ?_, fun v _ h => ?_⟩ <;> simp [State.withHost] at h

/-- The sequencer's turn with an instruction, an illegal opcode, a reserved field and NOP pending, and with nothing pending. -/
theorem witness_sequencer_turn :
    nextTurn (pending 0x10400401#32) = .sequencer ∧ (pending 0x10400401#32).pend = some 0x10400401#32 ∧
    decode 0x10400401#32 = .ok (.venum 1 1 1) ∧ decode 0x34000000#32 = .error .illegalOpcode ∧
    decode 0x00400000#32 = .error .reservedField ∧ nextTurn full = .sequencer ∧ full.pend = some 0#32 ∧
    nextTurn State.reset = .sequencer ∧ State.reset.pend = none := by decide
theorem witness_StepPerformsThePendingCommand :
    ∃ t, exec (.venum 1 1 1) (dropTurn (pending 0x10400401#32)) = .next t := ⟨_, rfl⟩

/-- Legal and illegal configurations at the bounds are in `test_configurations`; this is the injectivity clause, both ways. -/
theorem witness_InjectiveCode :
    InjectiveCode (genBits gEx) ∧ InjectiveCode (full.readM 0).bits ∧ ¬ InjectiveCode (full.readM 3).bits := by
  refine ⟨(injective_build_iff _).1 ?_, (injective_build_iff _).1 ?_, fun h => absurd ((injective_build_iff _).2 h) ?_⟩
  · rw [test_codebook_of_gEx]; exact test_gEx_is_injective
  · decide +kernel
  · decide +kernel

/-- Operands on each side of each check of the linear-algebra commands. -/
theorem witness_LinearCommandFaults :
    ¬ LegalLen (full.readV 0).len ∧ ¬ LegalLen (full.readV 4).len ∧ LegalLen (full.readV 7).len ∧
    LegalLen (full.readV 6).len ∧ LegalShape (full.readM 1) ∧ ¬ LegalShape (full.readM 2) ∧
    (full.readV 1).len = (full.readM 1).height ∧ (full.readV 7).len ≠ (full.readM 1).height ∧
    LegalShape (full.readM 0) ∧ (full.readM 0).width ≠ (full.readM 1).height := by
  simp only [← legalLen_iff, ← legal_iff]; decide
theorem witness_MmulIsTheMatrixProduct :
    let s := { full with m := full.m.set 2 (matOf 0x302#32 [5, 6]) }
    LegalShape (s.readM 1) ∧ LegalShape (s.readM 2) ∧ (s.readM 1).width = (s.readM 2).height := by
  simp only [← legal_iff]; decide

/-- Operands on each side of each check of the code-definition commands. -/
theorem witness_CodeCommandFaults :
    (LegalLen 1#4 ∧ (1#10).toNat < 2 ^ (1#4).toNat) ∧ (LegalLen 10#4 ∧ (1023#10).toNat < 2 ^ (10#4).toNat) ∧
    ¬ (LegalLen 0#4 ∧ (0#10).toNat < 2 ^ (0#4).toNat) ∧ ¬ (LegalLen 11#4 ∧ (0#10).toNat < 2 ^ (11#4).toNat) ∧
    ¬ (LegalLen 3#4 ∧ (8#10).toNat < 2 ^ (3#4).toNat) ∧
    ¬ ((full.readM 1).height = 6#4 ∧ (full.readM 1).width = 10#4) ∧
    ((full.readM 0).height = 6#4 ∧ (full.readM 0).width = 10#4) ∧
    ((full.readM 3).height = 6#4 ∧ (full.readM 3).width = 10#4) ∧
    (full.readV 5).len = 6#4 ∧ (full.readV 6).len = 10#4 ∧
    (∀ e < 64, cwAt full.cb e ≠ (full.readV 3).data) := by
  simp only [← immInRange_iff]; decide +kernel

/-- The entry CBLOOK finds, the first that holds the codeword. -/
theorem witness_CblookFindsTheEntry :
    (full.readV 2).len = 10#4 ∧ cwAt full.cb 32 = (full.readV 2).data ∧
    ∀ f < 32, cwAt full.cb f ≠ (full.readV 2).data := by decide +kernel

/-- Operands on each side of each check of the distance, correlation and decoder commands. -/
theorem witness_DecoderCommandFaults :
    (full.readV 2).len = (full.readV 6).len ∧ (full.readV 1).len ≠ (full.readV 2).len ∧
    LegalLen (full.readV 1).len ∧ ¬ LegalLen (full.readS 0).len ∧ ¬ LegalLen (full.readS 3).len ∧
    LegalLen (full.readS 1).len ∧ LegalLen (full.readS 2).len ∧ (full.readS 2).len = (full.readV 7).len ∧
    (full.readS 2).len ≠ (full.readV 2).len ∧ (full.readS 2).len ≠ 10#4 ∧ (full.readS 1).len = 10#4 := by
  simp only [← legalLen_iff]; decide

/-- A state in error, with a host's CMD write, a CTRL write of no action, and the sequencer next. -/
theorem witness_ErrorStateIsSticky :
    inError.err = true ∧ inError.pend = none ∧ nextTurn inError = .sequencer ∧
    (∃ t, step inError = .next t) ∧
    nextTurn (inError.withHost { inError.host with agenda := [wr 0x004 0x10400401#32] }) = wr 0x004 0x10400401#32 ∧
    nextTurn (inError.withHost { inError.host with agenda := [wr 0x00C 4#32] }) = wr 0x00C 4#32 ∧
    (4#32).getLsbD 0 = false ∧ (4#32).getLsbD 1 = false :=
  ⟨by decide, by decide, by decide, ⟨_, rfl⟩, rfl, rfl, by decide, by decide⟩

/-- A command that succeeds and one that faults, and bytes inside and outside what each writes. -/
theorem witness_CommandFrameOverTheWindow :
    (nextState (exec (.venum 1 1 1) full)).pend = some 0#32 ∧ commandWrites (.venum 1 1 1) (regAt (0x047 / 4 * 4)) = true ∧
    commandWrites (.venum 1 1 1) (regAt (0x048 / 4 * 4)) = false ∧
    (nextState (exec (.venum 1 0 0) full)).pend = none ∧ regAt (0xFFF / 4 * 4) = .reserved ∧
    regAt (0x008 / 4 * 4) = .status ∧ regAt (0x01F / 4 * 4) = .errInfo := by decide
theorem witness_exec_next : (∃ t, exec (.venum 1 1 1) full = .next t) ∧ ∃ t, exec (.venum 1 0 0) full = .next t :=
  ⟨⟨_, rfl⟩, ⟨_, rfl⟩⟩
/-- Commands that are none of those the clauses name. -/
theorem witness_OnlyNamedCommandsWriteResultsAndCode :
    (∀ a b, Instr.nop ≠ .hdist a b) ∧ (∀ a b, Instr.nop ≠ .corr a b) ∧ (∀ d a, Instr.nop ≠ .dech d a) ∧
    (∀ d a, Instr.nop ≠ .decs d a) ∧ (∀ d a, Instr.nop ≠ .cblook d a) ∧ ∀ a, Instr.nop ≠ .gload a := by
  refine ⟨?_, ?_, ?_, ?_, ?_, ?_⟩ <;> intros <;> simp
/-- A command that changes a vector register and one that changes a matrix register. -/
theorem witness_CommandResultsAreWellShaped :
    (nextState (exec (.venum 1 1 1) full)).readV 1 ≠ full.readV 1 ∧
    (nextState (exec (.trans 2 1) full)).readM 2 ≠ full.readM 2 := by decide

/-- The window's bounds: the last word, the first and last register of each block, and the places between. -/
theorem witness_WindowMapIsExact :
    0xFFC % 4 = 0 ∧ 0xFFC < 0x1000 ∧ regAt 0x020 = .reserved ∧ regAt 0x03C = .reserved ∧ regAt 0x07C = .vec 15 ∧
    regAt 0x080 = .reserved ∧ regAt 0x0FC = .reserved ∧ regAt 0x1E4 = .matRow 3 9 ∧ regAt 0x1E8 = .matDims 3 ∧
    regAt 0x1EC = .reserved ∧ regAt 0x2E8 = .softLen 3 ∧ regAt 0x2FC = .reserved ∧ regAt 0x314 = .genRow 5 ∧
    regAt 0x318 = .reserved ∧ regAt 0x3FC = .reserved ∧ regAt 0x4FC = .cbEntry 63 ∧ regAt 0x500 = .reserved := by decide
/-- A host's turn of each kind, at the bounds of what is accepted. -/
theorem witness_HostAccessTurn :
    accessOk 0xFFC 4 = true ∧ accessOk 0x1000 4 = false ∧ accessOk 0xFFE 4 = false ∧ accessOk 0x040 2 = false ∧
    accessOk 0x040 8 = false ∧
    nextTurn (full.withHost { full.host with agenda := [.host (.read 0xFFC 4)] }) = .host (.read 0xFFC 4) := by decide
/-- Every field of STATUS, at its first and last bit. -/
theorem witness_StatusImageFields :
    (31 : Nat) < 32 ∧
    { full with err := true, ovr := true, errCode := 9#4 }.memRead 0x008 = 0x0000090F#32 ∧
    { full with pend := none, cfg := false }.memRead 0x008 = 0#32 := by decide
/-- Images read back at the first and last bit of each field. -/
theorem witness_ReadBackBounds :
    (State.reset.memWrite 0x07C 0xFFF1FFFF#32).memRead 0x07C = 0x00010001#32 ∧
    (State.reset.memWrite 0x1E8 0xFFFFF5F1#32).memRead 0x1E8 = 0x00000501#32 ∧
    (State.reset.memWrite 0x2E4 0xFFFF7FFF#32).memRead 0x2E4 = 0x00007FFF#32 := by decide
/-- Offsets the write frame covers, of each clause. -/
theorem witness_HostWriteFrame :
    0x040 % 4 = 0 ∧ (0x044 : Nat) / 4 * 4 ≠ 0x040 ∧ (0x03C : Nat) < 0x040 ∧ (0x300 : Nat) ≤ 0x300 ∧
    regAt 0x12C = .reserved ∧ regAt 0x0FC = .reserved ∧ regAt 0x040 ≠ .cmd ∧ regAt 0x040 ≠ .ctrl := by decide
/-- The three ways to offer a command, and the four of CTRL. -/
theorem witness_OfferingACommand :
    full.pend ≠ none ∧ inError.pend = none ∧ inError.err = true ∧ configured.pend = none ∧ configured.err = false := by
  decide
theorem witness_ControlActions :
    (3#32).getLsbD 0 = true ∧ (2#32).getLsbD 0 = false ∧ (2#32).getLsbD 1 = true ∧ (0xFFFFFFFC#32).getLsbD 0 = false ∧
    (0xFFFFFFFC#32).getLsbD 1 = false := by decide

/-- Both reset events, and both kinds of configuration. -/
theorem witness_ResetState :
    nextTurn (full.withHost { full.host with agenda := [.hardReset (some (.read 0 4))] }) =
      .hardReset (some (.read 0 4)) ∧
    nextTurn (full.withHost { full.host with agenda := [wr 0x00C 1#32] }) = .host (.write 0x00C 4 1#32) ∧
    (1#32).getLsbD 0 = true ∧ configLegal { sw := 16, gReset := some gEx } = true ∧
    configLegal { sw := 16, gReset := none } = true := by decide +kernel

/-- Steps from states of the invariants: a command's, and a host's. -/
theorem witness_BlockInvariantsKept : BlockInv full ∧ ∃ t, step full = .next t := ⟨witness_full_inv, ⟨_, rfl⟩⟩
theorem witness_OnlyGloadAndResetChangeTheCode :
    CodebookInv full ∧ CodebookInv unconfigured ∧ ∃ t, step (pending 0x14000000#32) = .next t :=
  ⟨witness_full_inv.codebook, fun h => absurd h (by decide), ⟨_, rfl⟩⟩
/-- The invariants hold of the reset state of the reference configuration. -/
theorem witness_reset_inv : BlockInv State.reset where
  codebook h := absurd h (by decide)
  dminZero _ := rfl
  vectors i j _ := by simp [State.reset, State.resetWith, State.readV, VecReg.zero]
  samples i k j _ := by simp [State.reset, State.resetWith, State.readS, SoftReg.zero]
  noError _ := ⟨rfl, rfl⟩
  errorCode h := absurd h (by decide)
  noCommandInError _ := rfl
  pendingReadable w h := absurd h (by simp [State.reset, State.resetWith])
  awaited h := absurd rfl h

/-- The last host access of a run, a STATUS read, while a command is pending and while none is; and a turn of another kind. -/
theorem witness_WaitAndRunEndWithNothingPending :
    let s := full.withHost { full.host with agenda := [.host (.read 0x008 4)] }
    let r := State.reset.withHost { State.reset.host with agenda := [.host (.read 0x008 4)] }
    nextTurn s = .host (.read 0x008 4) ∧ configLegal s.config = true ∧ s.host.awaiting = true ∧
    (nextState (step s)).host.awaiting = true ∧ (nextState (step r)).host.awaiting = false ∧
    full.host.awaiting = true ∧ nextTurn full ≠ .host (.read 0x008 4) ∧ ∃ t, step full = .next t := by
  refine ⟨by decide, by decide, by decide, by decide, by decide, by decide, by decide, ⟨_, rfl⟩⟩
theorem witness_WaitAndRunEndWithNothingPending_inv (h : HostSide) (hw : h.awaiting = true) :
    BlockInv (full.withHost h) ∧ BlockInv (State.reset.withHost h) :=
  ⟨{ witness_full_inv with awaited := fun _ => hw }, { witness_reset_inv with awaited := fun _ => hw }⟩
theorem witness_RunEnds : RunEnds State.reset 0 State.reset :=
  ⟨rfl, ⟨fun _ h => absurd h List.not_mem_nil, rfl⟩, fun k h => absurd h (Nat.not_lt_zero k)⟩

/-- A run is over and has faulted though a hard reset is still to come (R136 asks only that no host access is). -/
theorem test_faulted_run_before_reset :
    let s := inError.withHost { agenda := [.hardReset none], reply := none, awaiting := false }
    FaultedRun s 0 s ∧ ¬ CleanRun s 0 s := by
  refine ⟨⟨⟨rfl, ⟨?_, rfl⟩, fun k h => absurd h (Nat.not_lt_zero k)⟩, by decide⟩, fun h => absurd h.2.1 (by decide)⟩
  intro t h
  obtain rfl := List.mem_singleton.1 h
  rfl
/-- A host access that a hard reset will cut short is still to be issued, and a command is pending: neither run is over. -/
theorem test_run_not_over :
    ¬ RunOver (State.reset.withHost { State.reset.host with agenda := [.hardReset (some (.read 0 4))] }) ∧ ¬ RunOver full :=
  ⟨fun h => absurd (h.1 _ (List.mem_singleton.2 rfl)) (by decide), fun h => absurd h.2 (by decide)⟩

/-- Accesses that keep the hazard rule while ENC v2, v1 is pending, and accesses that do not. -/
theorem witness_HazardFreeAccessCommutes :
    decode 0x1C840000#32 = .ok (.enc 2 1) ∧ (pending 0x1C840000#32).pend = some 0x1C840000#32 ∧
    hazardFree (.enc 2 1) (.write 0x04C 4 5#32) = true ∧ hazardFree (.enc 2 1) (.read 0x044 4) = true ∧
    hazardFree (.enc 2 1) (.write 0x044 4 5#32) = false ∧ hazardFree (.enc 2 1) (.write 0x048 4 5#32) = false ∧
    hazardFree (.enc 2 1) (.read 0x048 4) = false ∧ hazardFree (.enc 2 1) (.write 0x004 4 0#32) = false := by decide
/-- The same for that word, and for a pending word that is no instruction, at each bound of its clauses. -/
theorem witness_HazardFreeAccessCommutes_words :
    hazardFreeWord 0x1C840000#32 (.write 0x04C 4 5#32) = true ∧ hazardFreeWord 0x1C840000#32 (.read 0x048 4) = false ∧
    (pending 0x34000000#32).pend = some 0x34000000#32 ∧ decode 0x34000000#32 = .error .illegalOpcode ∧
    hazardFreeWord 0x34000000#32 (.read 0x048 4) = true ∧ hazardFreeWord 0x34000000#32 (.write 0x048 4 5#32) = true ∧
    hazardFreeWord 0x34000000#32 (.read 0x008 4) = false ∧ hazardFreeWord 0x34000000#32 (.read 0x01C 4) = false ∧
    hazardFreeWord 0x34000000#32 (.write 0x004 4 0#32) = false ∧ hazardFreeWord 0x34000000#32 (.write 0x00C 4 0#32) = false ∧
    hazardFreeWord 0x34000000#32 (.read 0x008 2) = true := by decide

/-- The round trips: the source vector of entry 32, a vector with one flip, and a noiseless soft register. -/
theorem witness_EncodeThenLookUpRoundTrip :
    full.readV 5 = { len := 6#4, data := (srcAt full.cb 32).setWidth 10 } := by decide
theorem witness_HardDecoderCorrectsWithinRadius :
    (full.readV 6).len = 10#4 ∧ 2 * distance 10 (full.readV 6).data.getLsbD (cwAt full.cb 32).getLsbD < full.dmin.toNat := by
  rw [← hd_eq_distance]; decide
theorem witness_SoftDecoderRoundTrip :
    (full.readS 1).len = 10#4 ∧
    ∀ k < 10, (full.readS 1).value full.config k = if (cwAt full.cb 32).getLsbD k = true then 7 else -7 := by decide
theorem witness_SoftDecisionIgnoresScale :
    let s' := { full with soft := full.soft.set 1 (softOf full.config 10 [21, -21, -21, -21, -21, -21, 21, 21, -21, -21]) }
    (s'.readS 1).len = 10#4 ∧ s'.cb = full.cb ∧
    ∀ i < 10, (s'.readS 1).value s'.config i = 3 * (full.readS 1).value full.config i := by decide
/-- A VSET of no bit and one of 11 bits expand to no command (log entry 23). -/
theorem test_vset_outside_its_range :
    Pseudo.expand (.vset 1 []) = [] ∧ Pseudo.expand (.vset 1 (List.replicate 11 true)) = [] := by decide
/-- The shortest and the longest VSET. -/
theorem witness_VsetLoadsItsBits :
    1 ≤ [true].length ∧ (List.replicate 10 true).length ≤ 10 ∧
    Pseudo.expand (.vset 1 [true, false, false, false, false, false]) = [.venum 1 6 32] := by decide

/-- Images at the bounds of every field: element 0 and the length of V, dims, a negative sample, G, and both fields of CB. -/
theorem witness_OperandRegisterReads :
    (31 : Nat) < 32 ∧ configLegal full.config = true ∧ full.memRead 0x048 = 0x000A00C1#32 ∧
    full.memRead 0x100 = 0x000000C1#32 ∧ full.memRead 0x128 = 0x00000A06#32 ∧ (full.memRead 0x244).toInt = -7 ∧
    full.memRead 0x268 = 10#32 ∧ full.memRead 0x314 = 0x00000320#32 ∧ full.memRead 0x4FC = 0x003F03FF#32 ∧
    full.memRead 0x404 = 0x00200320#32 := by decide
/-- OVR kept by a CTRL write of no action, and set by a CMD write while a command is pending. -/
theorem witness_OverrunIsSticky :
    let s := { full with ovr := true }.withHost { full.host with agenda := [wr 0x00C 4#32] }
    let r := full.withHost { full.host with agenda := [wr 0x004 4#32] }
    s.ovr = true ∧ nextTurn s = .host (.write 0x00C 4 4#32) ∧ (4#32).getLsbD 0 = false ∧ (4#32).getLsbD 1 = false ∧
    r.ovr = false ∧ (∃ t, step s = .next t) ∧ (nextState (step r)).ovr = true ∧ (nextState (step s)).ovr = true :=
  ⟨rfl, rfl, by decide, by decide, rfl, ⟨_, rfl⟩, by decide, by decide⟩

end Sys2Proof.Tests
end

section
/-! PROOF. The family 10_state.md: the images of the registers bit by bit, what a host write reads back, CTRL and reset, the OVR
flag, the frame and the shape of what a command writes, and the soft decoder under scaling. -/

namespace Sys2Proof.Machine

/-! ## Register images, bit by bit (10_state.md R25, R27, R28, R30, R33) -/

/-- A field above `g` reserved bits and below `p` more. -/
theorem field_getLsbD {p a g : Nat} (x : BitVec a) (k : Nat) :
    (0#p ++ x ++ 0#g).getLsbD k = (decide (g ≤ k ∧ k < g + a) && x.getLsbD (k - g)) := by
  simp only [BitVec.getLsbD_append, BitVec.getLsbD_zero]
  by_cases hg : k < g
  · simp [hg, Nat.not_le.2 hg]
  · by_cases ha : k < g + a
    · simp [hg, ha, show k - g < a by omega, Nat.not_lt.1 hg]
    · simp [hg, ha, show ¬ k - g < a by omega]

/-- An image of two fields: `lo` at bit 0, and `hi` above a gap of `g` reserved bits. -/
theorem twoFields_getLsbD {p a g b : Nat} (hi : BitVec a) (lo : BitVec b) (k : Nat) :
    (0#p ++ hi ++ 0#g ++ lo).getLsbD k =
      if k < b then lo.getLsbD k
      else if b + g ≤ k ∧ k < b + g + a then hi.getLsbD (k - (b + g))
      else false := by
  rw [BitVec.getLsbD_append, field_getLsbD]
  split_ifs with hlo hhi
  · rfl
  · simp [show g ≤ k - b ∧ k - b < g + a by omega, Nat.sub_sub]
  · simp [show ¬ (g ≤ k - b ∧ k - b < g + a) by omega]

theorem VecReg.image_getLsbD (r : VecReg) (k : Nat) :
    r.image.getLsbD k =
      if k < 10 then r.bits k else if 16 ≤ k ∧ k < 20 then r.len.getLsbD (k - 16) else false :=
  twoFields_getLsbD r.len r.data k

theorem MatReg.dimsImage_getLsbD (r : MatReg) (k : Nat) :
    r.dimsImage.getLsbD k =
      if k < 4 then r.height.getLsbD k else if 8 ≤ k ∧ k < 12 then r.width.getLsbD (k - 8) else false :=
  twoFields_getLsbD r.width r.height k

theorem CbEntry.image_getLsbD (e : CbEntry) (k : Nat) :
    e.image.getLsbD k =
      if k < 10 then e.cw.getLsbD k else if 16 ≤ k ∧ k < 22 then e.src.getLsbD (k - 16) else false :=
  twoFields_getLsbD e.src e.cw k

/-- A packed row as a register reads it. -/
theorem packed_setWidth_getLsbD (x : Packed) {k : Nat} (hk : k < 32) :
    (x.setWidth 32).getLsbD k = (decide (k < 10) && x.getLsbD k) := by
  rw [BitVec.getLsbD_setWidth]
  by_cases h : k < 10
  · simp [h, hk]
  · simp [h, BitVec.getLsbD_of_ge x k (Nat.not_lt.1 h)]

/-- A sample reads as the signed value the commands use (10_state.md R30, R31). -/
theorem toInt_sampleImage {c : Config} (hc : configLegal c = true) (w : Word) :
    (sampleImage c w).toInt = sampleValue c w := by
  obtain ⟨-, h27, -⟩ := configLegal_iff.1 hc
  exact BitVec.toInt_signExtend_of_le (by omega)

/-- The four flags stand as single bits below the field of ERRCODE. -/
theorem statusImage_eq_concat (s : State) :
    s.statusImage =
      ((((0#20 ++ s.errCode ++ 0#4).concat s.cfg).concat s.ovr).concat s.err).concat s.pend.isSome := rfl

/-- Settles O33, taking the flags off STATUS one by one down to the field of ERRCODE. -/
theorem statusImageFields : Obligations.StatusImageFields := by
  intro s k _
  show s.statusImage.getLsbD k = _
  simp only [statusImage_eq_concat, BitVec.getLsbD_concat, field_getLsbD]
  rcases k with _ | _ | _ | _ | k
  · rfl
  · rfl
  · rfl
  · rfl
  · simp [show k + 1 + 1 + 1 < 11 ↔ k < 8 by omega]

/-- Settles O34: the image of each register is its field, IDX and DMIN widened. -/
theorem controlRegisterReads : Obligations.ControlRegisterReads := by
  intro s
  have hidx : (s.idx.setWidth 32).toNat = s.idx.toNat := BitVec.toNat_setWidth_of_le (by decide)
  have hdmin : (s.dmin.setWidth 32).toNat = s.dmin.toNat := BitVec.toNat_setWidth_of_le (by decide)
  exact ⟨rfl, rfl, rfl, rfl, hidx, hdmin, rfl⟩

/-- Settles O59, register by register, each by its image. -/
theorem operandRegisterReads : Obligations.OperandRegisterReads := by
  intro s k hk
  simp only [State.memRead, regAt_vec, regAt_matRow, regAt_matDims, regAt_sample, regAt_softLen, regAt_genRow,
    regAt_cbEntry, State.image]
  refine ⟨fun i => VecReg.image_getLsbD _ k, fun m r => ?_, fun m => MatReg.dimsImage_getLsbD _ k,
    fun i j hc => ?_, fun i => BitVec.toNat_setWidth_of_le (by decide), fun r => ?_, fun e => ?_⟩
  · rw [packed_setWidth_getLsbD _ hk]
    simp [State.readM, MatReg.bits]
  · rw [toInt_sampleImage hc]
    simp [State.readS, SoftReg.value]
  · rw [packed_setWidth_getLsbD _ hk]
    simp [genBits]
  · rw [CbEntry.image_getLsbD]
    simp [cwAt, srcAt]

/-! ## Host writes read back (10_state.md R27, R28, R30) -/

theorem VecReg.ofImage_bits (w : Word) {k : Nat} (hk : k < 10) :
    (VecReg.ofImage w).bits k = (w.getLsbD k && decide (k < (w.extractLsb' 16 4).toNat)) := by
  simp [VecReg.ofImage, VecReg.bits, hk, Bool.and_comm]

theorem VecReg.ofImage_len (w : Word) {k : Nat} (hk : k < 4) :
    (VecReg.ofImage w).len.getLsbD k = w.getLsbD (16 + k) := by
  simp [VecReg.ofImage, hk]

/-- A written sample reads back as the sign extension of its SW low bits. -/
theorem sampleImage_storedSample_getLsbD {c : Config} (hc : configLegal c = true) (w : Word) {k : Nat} (hk : k < 32) :
    (sampleImage c (storedSample c w)).getLsbD k = w.getLsbD (min k (c.sw - 1)) := by
  obtain ⟨h2, h27, -⟩ := configLegal_iff.1 hc
  have hw : (storedSample c w).setWidth c.sw = w.setWidth c.sw :=
    BitVec.setWidth_setWidth_of_le (w.setWidth c.sw) (by omega) |>.trans (BitVec.setWidth_eq _)
  rw [sampleImage, hw, BitVec.getLsbD_signExtend]
  by_cases h : k < c.sw
  · simp [h, hk, show min k (c.sw - 1) = k by omega]
  · simp [h, hk, show min k (c.sw - 1) = c.sw - 1 by omega, BitVec.msb_eq_getLsbD_last, show 0 < c.sw by omega]

/-- Settles O35, field by field of the vector image. -/
theorem vectorWriteReadsBackMasked : Obligations.VectorWriteReadsBackMasked := by
  intro s i w k _
  simp only [State.memRead, State.memWrite, regAt_vec, image_storeReg_vec, VecReg.image_getLsbD]
  split_ifs with hdata hlen
  · exact VecReg.ofImage_bits w hdata
  · rw [VecReg.ofImage_len w (by omega), Nat.add_sub_cancel' hlen.1]
  · rfl

/-- Settles O36: a row is ten bits widened, dims an image of two fields. -/
theorem matrixWriteReadsBack : Obligations.MatrixWriteReadsBack := by
  intro s m w k hk
  simp only [State.memRead, State.memWrite, regAt_matRow, regAt_matDims, image_storeReg_matRow, image_storeReg_matDims]
  refine ⟨fun _ => by simp [hk], ?_⟩
  rw [twoFields_getLsbD]
  split_ifs with hheight hwidth
  · simp [hheight]
  · simp [hheight, hwidth, show k - 8 < 4 by omega]
  · simp [hheight, show ¬ (8 ≤ k ∧ k < 12) from hwidth]

/-- Settles O37: a sample stores its SW low bits and reads their sign extension; len is four bits widened. -/
theorem sampleWriteReadsBackSigned : Obligations.SampleWriteReadsBackSigned := by
  intro s i w k hc hk
  simp only [State.memRead, State.memWrite, regAt_sample, regAt_softLen, image_storeReg_sample, image_storeReg_softLen]
  exact ⟨fun _ => sampleImage_storedSample_getLsbD hc w hk, by simp [hk]⟩

/-! ## CTRL and reset (10_state.md R26, R42, 70_reset_and_hazards.md R181, R182) -/

/-- Settles O40: 0x00C is CTRL, whose image is 0 and whose write is `State.control`. -/
theorem controlActions : Obligations.ControlActions :=
  fun _ _ => ⟨rfl, control_srst, control_clrerr, control_none⟩

theorem step_hardReset {s : State} {cut : Option Access} (hc : configLegal s.config = true)
    (hn : nextTurn s = .hardReset cut) :
    ∃ h : HostSide, step s = .next ((State.resetWith s.config).withHost h) := by
  rw [step_of_legal hc, hn]
  exact ⟨_, rfl⟩

theorem step_softReset {s : State} {w : Word} (hc : configLegal s.config = true)
    (hn : nextTurn s = .host (.write 0x00C 4 w)) (hw : w.getLsbD 0 = true) :
    ∃ h : HostSide, step s = .next ((State.resetWith s.config).withHost h) := by
  have heffect : accessEffect (dropTurn s) (.write 0x00C 4 w) = (dropTurn s).resetBlock := control_srst hw
  rw [step_of_legal hc, hn, takeTurn, hostAccess, heffect]
  exact ⟨_, rfl⟩

/-- Settles O42: each reset event is a step to `State.resetWith`, and its fields are read off the definition; with a matrix
configured, the code is the one reset builds of it. -/
theorem resetState : Obligations.ResetState := by
  refine ⟨fun s hc hevent => ?_, fun c hc => ?_⟩
  · obtain ⟨cut, hn⟩ | ⟨w, hn, hw⟩ := hevent
    · exact step_hardReset hc hn
    · exact step_softReset hc hn hw
  · refine ⟨fun i => ?_, fun i => ?_, fun i => ?_, fun hnone => ?_, fun G hG => ?_,
      rfl, rfl, rfl, rfl, rfl, rfl, rfl, rfl, rfl⟩
    · simp [State.readV, State.resetWith, VecReg.zero]
    · simp [State.readM, State.resetWith, MatReg.zero]
    · simp [State.readS, State.resetWith, SoftReg.zero]
    · simp [State.resetWith, hnone]
    · exact ⟨by simp [State.resetWith, hG], codebookOf_reset hG hc, by simp [State.resetWith, hG]⟩

/-! ## The OVR flag (10_state.md R25, R26, 20_memory.md R56) -/

theorem offerCommand_ovr (s : State) (w : Word) : (s.offerCommand w).ovr = (s.ovr || s.busy) := by
  unfold State.offerCommand
  split_ifs with hb he <;> simp [hb]

theorem control_ovr (s : State) (w : Word) :
    (s.control w).ovr = (s.ovr && !w.getLsbD 0 && !w.getLsbD 1) := by
  cases h0 : w.getLsbD 0
  · cases h1 : w.getLsbD 1
    · simp [control_none h0 h1]
    · simp [control_clrerr h0 h1]
  · simp [control_srst h0, State.resetBlock, State.resetWith]

theorem storeReg_ovr (s : State) (w : Word) {r : WinReg} (hcmd : r ≠ .cmd) (hctrl : r ≠ .ctrl) :
    (s.storeReg w r).ovr = s.ovr := by
  cases r
  case cmd => exact absurd rfl hcmd
  case ctrl => exact absurd rfl hctrl
  all_goals rfl

/-- A host access leaves OVR, but for a word written to CMD or to CTRL. -/
theorem accessEffect_ovr (s : State) (a : Access) :
    (accessEffect s a).ovr = s.ovr ∨
      (∃ w, a = .write 0x004 4 w ∧ (accessEffect s a).ovr = (s.ovr || s.busy)) ∨
      ∃ w, a = .write 0x00C 4 w ∧ (accessEffect s a).ovr = (s.ovr && !w.getLsbD 0 && !w.getLsbD 1) := by
  cases a with
  | read => exact .inl rfl
  | write off size w =>
    by_cases hok : accessOk off size = true
    · obtain ⟨rfl, halign, hlt⟩ := accessOk_iff.1 hok
      by_cases hcmd : regAt off = .cmd
      · obtain rfl := regAt_eq_cmd halign hlt hcmd
        exact .inr (.inl ⟨w, rfl, offerCommand_ovr s w⟩)
      · by_cases hctrl : regAt off = .ctrl
        · obtain rfl := regAt_eq_ctrl halign hlt hctrl
          exact .inr (.inr ⟨w, rfl, control_ovr s w⟩)
        · refine .inl ?_
          simp only [accessEffect, hok, if_true]
          exact storeReg_ovr s w hcmd hctrl
    · exact .inl (by simp only [accessEffect, hok, Bool.false_eq_true, if_false])

theorem sequencerStep_ovr {s t : State} (h : sequencerStep s = .next t) : t.ovr = s.ovr := by
  obtain ⟨-, h'⟩ | ⟨w, u, -, h', hu⟩ := sequencerStep_cases s <;> rw [h'] at h <;> cases h
  · rfl
  · obtain ⟨c, rfl⟩ | ⟨i, -, he⟩ := hu
    · rfl
    · obtain ⟨-, -, -, -, hovr, -⟩ := he.frame
      exact hovr

/-- What a step makes of OVR, turn by turn. -/
theorem step_ovr {s t : State} (h : step s = .next t) :
    t.ovr = s.ovr ∨ (∃ cut, nextTurn s = .hardReset cut ∧ t.ovr = false) ∨
      (∃ w, nextTurn s = .host (.write 0x004 4 w) ∧ t.ovr = (s.ovr || s.busy)) ∨
      ∃ w, nextTurn s = .host (.write 0x00C 4 w) ∧ t.ovr = (s.ovr && !w.getLsbD 0 && !w.getLsbD 1) := by
  obtain ⟨-, ht⟩ := step_next h
  cases hn : nextTurn s with
  | sequencer =>
    rw [hn] at ht
    exact .inl (sequencerStep_ovr (s := dropTurn s) ht)
  | hardReset cut =>
    rw [hn] at ht
    cases ht
    exact .inr (.inl ⟨cut, rfl, rfl⟩)
  | host a =>
    rw [hn] at ht
    cases ht
    obtain hsame | ⟨w, rfl, hcmd⟩ | ⟨w, rfl, hctrl⟩ := accessEffect_ovr (dropTurn s) a
    · exact .inl hsame
    · exact .inr (.inr (.inl ⟨w, rfl, hcmd⟩))
    · exact .inr (.inr (.inr ⟨w, rfl, hctrl⟩))

/-- Settles O60, by the four things a step can make of OVR. -/
theorem overrunIsSticky : Obligations.OverrunIsSticky := by
  intro s t hst
  obtain hsame | ⟨cut, hn, hzero⟩ | ⟨w, hn, hcmd⟩ | ⟨w, hn, hctrl⟩ := step_ovr hst
  · exact ⟨fun hset _ _ => hsame.trans hset, fun hclear ht => by simp [hsame, hclear] at ht⟩
  · exact ⟨fun _ hreset _ => absurd hn (hreset cut), fun _ ht => by simp [hzero] at ht⟩
  · refine ⟨fun hset _ _ => by simp [hcmd, hset], fun hclear ht => ⟨?_, w, hn⟩⟩
    have hbusy : s.busy = true := by simpa [hcmd, hclear] using ht
    exact Option.isSome_iff_ne_none.1 hbusy
  · refine ⟨fun hset _ hw => ?_, fun hclear ht => by simp [hctrl, hclear] at ht⟩
    obtain ⟨h0, h1⟩ := hw w hn
    rw [hctrl, hset, h0, h1]
    rfl

/-! ## What a command may write (10_state.md R35, R36, 30_encoding.md R84) -/

/-- Only HDIST, CORR, DECH and DECS write RES. -/
theorem Effect.res {i : Instr} {s t : State} (h : Effect i s t) (hhdist : ∀ a b, i ≠ .hdist a b)
    (hcorr : ∀ a b, i ≠ .corr a b) (hdech : ∀ d a, i ≠ .dech d a) (hdecs : ∀ d a, i ≠ .decs d a) : t.res = s.res := by
  cases i with
  | nop => obtain rfl := h; rfl
  | vmul | venum | enc => obtain ⟨_, _, rfl⟩ := h; rfl
  | mmul | trans | gread => obtain ⟨_, _, _, rfl⟩ := h; rfl
  | gload => obtain ⟨-, rfl⟩ := h; rfl
  | cblook => obtain ⟨_, _, _, rfl⟩ := h; rfl
  | hdist a b => exact absurd rfl (hhdist a b)
  | corr a b => exact absurd rfl (hcorr a b)
  | dech d a => exact absurd rfl (hdech d a)
  | decs d a => exact absurd rfl (hdecs d a)

/-- Only CBLOOK, DECH and DECS write IDX. -/
theorem Effect.idx {i : Instr} {s t : State} (h : Effect i s t) (hcblook : ∀ d a, i ≠ .cblook d a)
    (hdech : ∀ d a, i ≠ .dech d a) (hdecs : ∀ d a, i ≠ .decs d a) : t.idx = s.idx := by
  cases i with
  | nop => obtain rfl := h; rfl
  | vmul | venum | enc => obtain ⟨_, _, rfl⟩ := h; rfl
  | mmul | trans | gread => obtain ⟨_, _, _, rfl⟩ := h; rfl
  | gload => obtain ⟨-, rfl⟩ := h; rfl
  | cblook d a => exact absurd rfl (hcblook d a)
  | hdist | corr => obtain ⟨_, rfl⟩ := h; rfl
  | dech d a => exact absurd rfl (hdech d a)
  | decs d a => exact absurd rfl (hdecs d a)

/-- Settles O29: a fault writes none of these fields, and an effect only those its command names. -/
theorem onlyNamedCommandsWriteResultsAndCode : Obligations.OnlyNamedCommandsWriteResultsAndCode := by
  intro i s t h
  obtain ⟨c, rfl⟩ | he := exec_next h
  · simp
  · obtain ⟨-, -, -, -, hovr, hcmdLast, hsoft, hconfig, hhost⟩ := he.frame
    exact ⟨hsoft, hconfig, hovr, hcmdLast, hhost, he.res, he.idx, he.code⟩

/-! ## The shape of what a command writes (10_state.md R27, R28, R29) -/

/-- Every vector and matrix register of `t` is as in `s`, or has a legal shape and 0 outside it. -/
def ShapedFrom (s t : State) : Prop :=
  (∀ k, t.readV k = s.readV k ∨
    (LegalLen (t.readV k).len ∧ ∀ j, (t.readV k).len.toNat ≤ j → (t.readV k).data.getLsbD j = false)) ∧
  ∀ k, t.readM k = s.readM k ∨
    (LegalShape (t.readM k) ∧
      ∀ r c, (t.readM k).height.toNat ≤ r ∨ (t.readM k).width.toNat ≤ c → (t.readM k).bits r c = false)

theorem ShapedFrom.refl (s : State) : ShapedFrom s s := ⟨fun _ => .inl rfl, fun _ => .inl rfl⟩

/-- Only the vector and matrix registers count. -/
theorem ShapedFrom.of_registers {s t u : State} (h : ShapedFrom s t) (hv : u.v = t.v) (hm : u.m = t.m) :
    ShapedFrom s u := by
  have hV : u.readV = t.readV := by funext k; simp only [State.readV, hv]
  have hM : u.readM = t.readM := by funext k; simp only [State.readM, hm]
  simpa only [ShapedFrom, hV, hM] using h

theorem shapedFrom_writeV (s : State) (d : VIdx) {n : BitVec 4} (hn : LegalLen n) (f : Bits) :
    ShapedFrom s (s.writeV d n f) := by
  refine ⟨fun k => ?_, fun _ => .inl rfl⟩
  rw [State.readV_writeV]
  split_ifs
  · exact .inr ⟨hn, fun j hj => by simp [Nat.not_lt.2 hj]⟩
  · exact .inl rfl

theorem shapedFrom_writeM (s : State) (d : MIdx) {h w : BitVec 4} (hh : LegalLen h) (hw : LegalLen w)
    (A : BitMatrix) : ShapedFrom s (s.writeM d h w A) := by
  refine ⟨fun _ => .inl rfl, fun k => ?_⟩
  rw [State.readM_writeM]
  split_ifs
  · refine .inr ⟨⟨hh, hw⟩, fun r c hout => ?_⟩
    rw [MatReg.height_ofBits, MatReg.width_ofBits] at hout
    rw [MatReg.bits_ofBits]
    obtain hr | hc := hout
    · simp [Nat.not_lt.2 hr]
    · simp [Nat.not_lt.2 hc]
  · exact .inl rfl

/-- Whatever state the outcome answers is shaped from `s`. -/
def ShapedOutcome (s : State) (o : Host.Outcome State Fault Refusal) : Prop := ∀ t, o = .next t → ShapedFrom s t

theorem ShapedOutcome.next {s t : State} (h : ShapedFrom s t) : ShapedOutcome s (.next t) := by
  rintro _ ⟨⟩
  exact h

theorem ShapedOutcome.fault (s : State) (c : FaultCode) : ShapedOutcome s (raiseFault c s) :=
  .next ((ShapedFrom.refl s).of_registers rfl rfl)

/-- One of a command's checks: the command faults there, or goes on with the check passed. -/
theorem ShapedOutcome.check {s : State} {c : FaultCode} {o : Host.Outcome State Fault Refusal} {p : Prop} [Decidable p]
    (h : ¬ p → ShapedOutcome s o) : ShapedOutcome s (if p then raiseFault c s else o) := by
  split_ifs with hp
  · exact .fault s c
  · exact h hp

theorem legalLen_of_check {n : BitVec 4} (h : ¬ (!legalLen n) = true) : LegalLen n := legalLen_iff.1 (by simpa using h)
theorem legalShape_of_check {r : MatReg} (h : ¬ (!r.legal) = true) : LegalShape r := legal_iff.1 (by simpa using h)

/-- The dimensions a command writes are a constant 6 or 10, or those of an operand that passed its length checks. -/
theorem shapedOutcome_exec (i : Instr) (s : State) : ShapedOutcome s (exec i s) := by
  have results {d : VIdx} {n : BitVec 4} {f : Bits} {w : Word} {e : Nat} (hn : LegalLen n) :
      ShapedOutcome s (.next (((s.writeV d n f).writeRes w).writeIdx e)) :=
    .next ((shapedFrom_writeV s d hn f).of_registers rfl rfl)
  cases i with
  | nop => exact .next (.refl s)
  | vmul d a b =>
    exact .check fun _ => .check fun hA => .check fun _ => .next (shapedFrom_writeV s d (legalShape_of_check hA).2 _)
  | mmul d a b =>
    exact .check fun hA => .check fun hB => .check fun _ =>
      .next (shapedFrom_writeM s d (legalShape_of_check hA).1 (legalShape_of_check hB).2 _)
  | trans d a =>
    exact .check fun hA => .next (shapedFrom_writeM s d (legalShape_of_check hA).2 (legalShape_of_check hA).1 _)
  | venum d size index =>
    exact .check fun hs => .check fun _ => .next (shapedFrom_writeV s d (legalLen_of_check hs) _)
  | gread d => exact .check fun _ => .next (shapedFrom_writeM s d legalLen_six legalLen_ten _)
  | enc d a => exact .check fun _ => .check fun _ => .check fun _ => .next (shapedFrom_writeV s d legalLen_ten _)
  | cblook d a =>
    refine .check fun _ => .check fun _ => .check fun _ => ?_
    split
    · exact .fault s _
    · exact .next ((shapedFrom_writeV s d legalLen_six _).of_registers rfl rfl)
  | gload | hdist | corr =>
    exact .check fun _ => .check fun _ => .check fun _ => .next ((ShapedFrom.refl s).of_registers rfl rfl)
  | dech | decs =>
    refine .check fun _ => .check fun _ => .check fun _ => ?_
    split
    exact results legalLen_ten

/-- Settles O30, command by command: every result is written with the dimensions of checked operands. -/
theorem commandResultsAreWellShaped : Obligations.CommandResultsAreWellShaped :=
  fun i s => shapedOutcome_exec i s

/-! ## The soft decoder under scaling (10_state.md R31, 42_decoders.md R124) -/

/-- Scaling every score by a positive factor keeps the entry found and scales its score. -/
theorem firstBest_scale {k : Int} (hk : 0 < k) (f : Nat → Int) (n : Nat) :
    firstBest (fun x y : Int => decide (x > y)) (fun e => k * f e) n =
      ((firstBest (fun x y : Int => decide (x > y)) f n).1, k * (firstBest (fun x y : Int => decide (x > y)) f n).2) := by
  induction n with
  | zero => rfl
  | succ n ih =>
    simp only [firstBest, ih, gt_iff_lt, mul_lt_mul_iff_right₀ hk]
    split_ifs <;> rfl

theorem correlation_scale {x y : Nat → Int} {k : Int} {n : Nat} (h : ∀ i < n, y i = k * x i) (c : Bits) :
    correlation n y c = k * correlation n x c := by
  rw [correlation, correlation, Finset.mul_sum]
  exact Finset.sum_congr rfl fun i hi => by rw [h i (Finset.mem_range.1 hi), mul_assoc]

theorem softDecision_scale {x y : Nat → Int} {k : Int} (hk : 0 < k) (h : ∀ i < 10, y i = k * x i) (cb : Codebook) :
    softDecision cb y = ((softDecision cb x).1, k * (softDecision cb x).2) := by
  simp only [softDecision, corr_eq_correlation, correlation_scale h, firstBest_scale hk]

/-- The score DECS writes to RES is exact. -/
theorem toInt_ofInt_softDecision {s : State} (hc : configLegal s.config = true) (r : SoftReg) (cb : Codebook) :
    (BitVec.ofInt 32 (softDecision cb (r.value s.config)).2).toInt = (softDecision cb (r.value s.config)).2 := by
  obtain ⟨-, hscore, -⟩ := softDecision_spec cb (r.value s.config)
  rw [hscore, toInt_ofInt_correlation hc r le_rfl]

/-- Settles O58: the two decisions name one entry, with the second score `k` times the first, and both scores fit in RES. -/
theorem softDecisionIgnoresScale : Obligations.SoftDecisionIgnoresScale := by
  intro s s' d a k hc hc' hcfg hcfg' hcb hl hl' hk hscale
  have hdec := softDecision_scale hk hscale s.cb
  refine ⟨_, _, exec_decs hcfg hl, exec_decs hcfg' hl', ?_, ?_, ?_⟩
  · simp only [State.writeIdx_idx, hcb, hdec]
  · simp [hcb, hdec]
  · simp only [State.writeIdx_res, State.writeRes_res, toInt_ofInt_softDecision hc, toInt_ofInt_softDecision hc', hcb]
    rw [hdec]

end Sys2Proof.Machine
end

section
/-! PROOF. The family 20_memory.md: the map of the window, what a host write leaves unchanged, the CMD write, and a host's turn. -/

namespace Sys2Proof.Machine

/-! ## The map (20_memory.md R52) -/

/-- Settles O31, by the lemma that places each register, and for the converse the offset of the register found. -/
theorem windowMapIsExact : Obligations.WindowMapIsExact :=
  ⟨by decide, regAt_vec, regAt_matRow, regAt_matDims, regAt_sample, regAt_softLen, regAt_genRow, regAt_cbEntry,
    fun _ => offset_regAt⟩

/-- No register stands at two places. -/
theorem regAt_inj {off off' : Nat} (halign : off % 4 = 0) (hlt : off < 0x1000) (halign' : off' % 4 = 0)
    (hlt' : off' < 0x1000) (hreg : regAt off ≠ .reserved) (heq : regAt off' = regAt off) : off' = off := by
  have hoff' := offset_regAt halign' hlt' (heq ▸ hreg)
  rw [heq, offset_regAt halign hlt hreg] at hoff'
  exact (Option.some.inj hoff').symm

/-! ## What a host write leaves unchanged (20_memory.md R54, R57, R60) -/

/-- The registers a write stores into, CMD and CTRL aside, all stand from 0x040 to 0x2FF. -/
theorem storeReg_readOnly (s : State) (w : Word) {r : WinReg} (hcmd : r ≠ .cmd) (hctrl : r ≠ .ctrl)
    (hplace : ∀ off, r.offset = some off → off < 0x040 ∨ 0x300 ≤ off) : s.storeReg w r = s := by
  cases r with
  | cmd => exact absurd rfl hcmd
  | ctrl => exact absurd rfl hctrl
  | vec | matRow | matDims | sample | softLen =>
    have := hplace _ rfl
    omega
  | _ => rfl

theorem memRead_memWrite_of_ne (s : State) (w : Word) {off off' : Nat} (halign : off % 4 = 0) (hlt : off < 0x1000)
    (halign' : off' % 4 = 0) (hlt' : off' < 0x1000) (hcmd : regAt off ≠ .cmd) (hctrl : regAt off ≠ .ctrl)
    (hne : off' ≠ off) : (s.memWrite off w).memRead off' = s.memRead off' := by
  by_cases hreg : regAt off = .reserved
  · simp only [State.memWrite, hreg, State.storeReg]
  · exact image_storeReg_of_ne s w hcmd hctrl fun heq => hne (regAt_inj halign hlt halign' hlt' hreg heq)

theorem memWrite_readOnly (s : State) (w : Word) {off : Nat} (halign : off % 4 = 0) (hlt : off < 0x1000)
    (hcmd : regAt off ≠ .cmd) (hctrl : regAt off ≠ .ctrl)
    (hplace : off < 0x040 ∨ 0x300 ≤ off ∨ regAt off = .reserved) : s.memWrite off w = s := by
  refine storeReg_readOnly s w hcmd hctrl fun place hoffset => ?_
  have hreg : regAt off ≠ .reserved := fun h => by simp [h, WinReg.offset] at hoffset
  obtain rfl : off = place := by simpa [offset_regAt halign hlt hreg] using hoffset
  exact hplace.imp_right fun h => h.resolve_right hreg

/-- Settles O38: distinct words of the window hold distinct registers, and what holds no operand stores nothing. -/
theorem hostWriteFrame : Obligations.HostWriteFrame := by
  intro s off p w halign hlt hp hcmd hctrl
  have hcmd' : regAt off ≠ .cmd := fun h => hcmd (regAt_eq_cmd halign hlt h)
  have hctrl' : regAt off ≠ .ctrl := fun h => hctrl (regAt_eq_ctrl halign hlt h)
  refine ⟨fun hne => ?_, memWrite_readOnly s w halign hlt hcmd' hctrl'⟩
  rw [State.windowByte, State.windowByte,
    memRead_memWrite_of_ne s w halign hlt (Nat.mul_mod_left _ _) (by omega) hcmd' hctrl' hne]

/-- A second write of the same word finds every field it stores as it would leave it. -/
theorem storeReg_storeReg (s : State) (w : Word) {r : WinReg} (hcmd : r ≠ .cmd) (hctrl : r ≠ .ctrl) :
    (s.storeReg w r).storeReg w r = s.storeReg w r := by
  cases r with
  | cmd => exact absurd rfl hcmd
  | ctrl => exact absurd rfl hctrl
  | vec | matRow | matDims | sample | softLen => simp [State.storeReg]
  | _ => rfl

/-- Settles O41, by the register the offset names. -/
theorem operandWritesAreIdempotent : Obligations.OperandWritesAreIdempotent :=
  fun s _ w => storeReg_storeReg s w

/-! ## Offering a command (20_memory.md R56) -/

theorem offerCommand_of_busy {s : State} (w : Word) (h : s.pend ≠ none) :
    s.offerCommand w = { s with ovr := true } :=
  if_pos (Option.isSome_iff_ne_none.2 h)

theorem offerCommand_of_idle {s : State} (w : Word) (h : s.pend = none) :
    s.offerCommand w = if s.err then s else s.acceptCommand w := by
  simp [State.offerCommand, State.busy, h]

/-- Settles O39: 0x004 is CMD, whose write offers the word. -/
theorem offeringACommand : Obligations.OfferingACommand := by
  intro s w
  refine ⟨offerCommand_of_busy w, fun hidle herr => ?_, fun hidle herr => ?_⟩
  · exact (offerCommand_of_idle w hidle).trans (if_pos herr)
  · exact (offerCommand_of_idle w hidle).trans (if_neg (by simp [herr]))

/-! ## A host's turn (20_memory.md R53, R54, R55, R59)

An access does not see the host's side, so taking its turn off the agenda first changes neither its effect nor its reply. -/

theorem accessEffect_withHost (s : State) (h : HostSide) (a : Access) :
    accessEffect (s.withHost h) a = (accessEffect s a).withHost h := by
  cases a with
  | read => rfl
  | write off size w =>
    simp only [accessEffect]
    split_ifs
    · exact storeReg_withHost s h w (regAt off)
    · rfl

theorem image_withHost (s : State) (h : HostSide) (r : WinReg) : (s.withHost h).image r = s.image r := by
  cases r <;> rfl

theorem busReply_withHost (s : State) (h : HostSide) (a : Access) : busReply (s.withHost h) a = busReply s a := by
  cases a with
  | read off size => simp only [busReply, State.memRead, image_withHost]
  | write => rfl

theorem step_hostAccess {s : State} {a : Access} (hc : configLegal s.config = true) (hn : nextTurn s = .host a) :
    ∃ h : HostSide, h.agenda = s.host.agenda.tail ∧ h.reply = some (busReply s a) ∧
      step s = .next ((accessEffect s a).withHost h) := by
  rw [step_of_legal hc, hn, takeTurn, hostAccess, dropTurn, accessEffect_withHost, busReply_withHost]
  exact ⟨_, rfl, rfl, rfl⟩

/-- Settles O32: the turn is the access's effect and reply, and `accessOk` is the condition of R55. -/
theorem hostAccessTurn : Obligations.HostAccessTurn := by
  intro s a hc hn
  obtain ⟨h, hagenda, hreply, hstep⟩ := step_hostAccess hc hn
  refine ⟨h, hagenda, ?_⟩
  cases a with
  | read off size => exact ⟨hstep, by simpa only [busReply, accessOk_iff] using hreply⟩
  | write off size w =>
    simp only [← accessOk_iff]
    split_ifs with hok <;> exact ⟨by simpa [accessEffect, hok] using hstep, by simpa [busReply, hok] using hreply⟩

end Sys2Proof.Machine
end

section
/-! PROOF. The family 30_encoding.md: encoding and decoding invert each other, the words the decoder refuses and the fault
they take, the frame of a command over the window, and what the pseudo-instructions leave. -/

namespace Sys2Proof

/-! ## Encode, then decode (30_encoding.md R81, R84) -/

/-- The word of any instruction carries its opcode's number, in fields its opcode accepts. -/
theorem legalFields (i : Instr) : Laws.LegalFields.Statement i := by
  cases i with
  | nop => exact Laws.LegalFields.nop
  | vmul d a b => exact Laws.LegalFields.vmul d a b
  | mmul d a b => exact Laws.LegalFields.mmul d a b
  | trans d a => exact Laws.LegalFields.trans d a
  | venum d size index => exact Laws.LegalFields.venum d size index
  | gload a => exact Laws.LegalFields.gload a
  | gread d => exact Laws.LegalFields.gread d
  | enc d a => exact Laws.LegalFields.enc d a
  | cblook d a => exact Laws.LegalFields.cblook d a
  | hdist a b => exact Laws.LegalFields.hdist a b
  | corr a b => exact Laws.LegalFields.corr a b
  | dech d a => exact Laws.LegalFields.dech d a
  | decs d a => exact Laws.LegalFields.decs d a

/-- The operands read from an instruction's word are its own. -/
theorem build_encode (i : Instr) : i.opcode.build (encode i) = i := by
  cases i <;> simp [Instr.opcode, Opcode.build, encode]

/-- Settles O1: an instruction's word passes the decoder's two checks, and its fields give the operands back. -/
theorem encodeThenDecodeIsIdentity : Obligations.EncodeThenDecodeIsIdentity := by
  intro i
  obtain ⟨hop, hfields⟩ := legalFields i
  rw [decode_of_legal (by rw [hop, ofNumber_number]) hfields, build_encode]

/-! ## Decode, then encode (30_encoding.md R81, R85) -/

theorem fieldsLegal_iff {op : Opcode} {w : Word} :
    fieldsLegal op w = true ↔
      op.dClass.accepts (dField w) = true ∧ op.aClass.accepts (aField w) = true ∧
        op.bClass.accepts (bField w) = true ∧ (op.usesImm = true ∨ (immField w).toNat = 0) := by
  simp [fieldsLegal, and_assoc]

theorem eq_zero_of_unused {f : BitVec 4} (h : OperandClass.unused.accepts f = true) : f = 0 :=
  BitVec.eq_of_toNat_eq (of_decide_eq_true h)

theorem regField_mIdx_of_matrix {f : BitVec 4} (h : OperandClass.matrix.accepts f = true) : regField (mIdx f) = f :=
  regField_mIdx (of_decide_eq_true h)

theorem regField_sIdx_of_soft {f : BitVec 4} (h : OperandClass.soft.accepts f = true) : regField (sIdx f) = f :=
  regField_sIdx (of_decide_eq_true h)

/-- A legal word's instruction is encoded in the fields it was read from: each holds a register number in range, or is
unused and zero. -/
theorem encode_build {op : Opcode} {w : Word} (h : fieldsLegal op w = true) :
    encode (op.build w) = encodeFields op (dField w) (aField w) (bField w) (immField w) := by
  obtain ⟨hd, ha, hb, himm⟩ := fieldsLegal_iff.1 h
  have hzero : op.usesImm = false → immField w = 0 := fun hno =>
    BitVec.eq_of_toNat_eq (himm.resolve_left (by simp [hno]))
  cases op <;> simp only [Opcode.build, encode, regField_vIdx]
  case nop => rw [eq_zero_of_unused hd, eq_zero_of_unused ha, eq_zero_of_unused hb, hzero rfl]
  case vmul => rw [regField_mIdx_of_matrix hb, hzero rfl]
  case mmul => rw [regField_mIdx_of_matrix hd, regField_mIdx_of_matrix ha, regField_mIdx_of_matrix hb, hzero rfl]
  case trans => rw [regField_mIdx_of_matrix hd, regField_mIdx_of_matrix ha, eq_zero_of_unused hb, hzero rfl]
  case venum => rw [eq_zero_of_unused ha, eq_zero_of_unused hb, append_imm]
  case gload => rw [eq_zero_of_unused hd, regField_mIdx_of_matrix ha, eq_zero_of_unused hb, hzero rfl]
  case gread => rw [regField_mIdx_of_matrix hd, eq_zero_of_unused ha, eq_zero_of_unused hb, hzero rfl]
  case enc | cblook | dech => rw [eq_zero_of_unused hb, hzero rfl]
  case hdist => rw [eq_zero_of_unused hd, hzero rfl]
  case corr => rw [eq_zero_of_unused hd, regField_sIdx_of_soft ha, hzero rfl]
  case decs => rw [regField_sIdx_of_soft ha, eq_zero_of_unused hb, hzero rfl]

/-- Settles O2: encoding what a word decodes to puts back the word's opcode and its four other fields. -/
theorem decodedWordIsItsEncoding : Obligations.DecodedWordIsItsEncoding := by
  intro w i h
  obtain ⟨op, hop, hfields, rfl⟩ := decode_eq_ok h
  rw [encode_build hfields, encodeFields, number_ofNumber hop, append_fields]

/-! ## The words the decoder refuses (30_encoding.md R82, R83, R85) -/

theorem decode_eq_illegalOpcode_iff {w : Word} :
    decode w = .error .illegalOpcode ↔ Opcode.ofNumber (opField w) = none := by
  unfold decode
  split
  · simp [*]
  · split_ifs <;> simp [*]

theorem ofNumber_of_toNat {n : BitVec 6} {op : Opcode} (h : n.toNat = op.number.toNat) : Opcode.ofNumber n = some op := by
  rw [BitVec.eq_of_toNat_eq h, ofNumber_number]

/-- The values a field of each class must not hold (R82). -/
def OperandClass.Rejects : OperandClass → Nat → Prop
  | .vector, _ => False
  | .matrix, f => 4 ≤ f
  | .soft, f => 4 ≤ f
  | .unused, f => f ≠ 0

theorem accepts_iff_not_rejects (c : OperandClass) (f : BitVec 4) : c.accepts f = true ↔ ¬ c.Rejects f.toNat := by
  cases c <;> simp [OperandClass.accepts, OperandClass.Rejects]

/-- A word of an assigned opcode is a RESERVED_FIELD word exactly when one of its fields is rejected. -/
theorem decode_eq_reservedField_iff (op : Opcode) {w : Word} (h : (opField w).toNat = op.number.toNat) :
    decode w = .error .reservedField ↔
      op.dClass.Rejects (dField w).toNat ∨ op.aClass.Rejects (aField w).toNat ∨ op.bClass.Rejects (bField w).toNat ∨
        (op.usesImm = false ∧ (immField w).toNat ≠ 0) := by
  have hfields : decode w = .error .reservedField ↔ ¬ fieldsLegal op w = true := by
    simp [decode, ofNumber_of_toNat h]
  rw [hfields, fieldsLegal_iff]
  simp only [accepts_iff_not_rejects, not_and_or, not_not, not_or, Bool.not_eq_true, ne_eq]

/-- Settles O3: the field checks of `decode_eq_reservedField_iff` at the classes of each opcode. -/
theorem reservedWordsAreRejectedByName : Obligations.ReservedWordsAreRejectedByName := by
  intro w
  have clause (op : Opcode) {P : Prop}
      (hP : (op.dClass.Rejects (dField w).toNat ∨ op.aClass.Rejects (aField w).toNat ∨
        op.bClass.Rejects (bField w).toNat ∨ (op.usesImm = false ∧ (immField w).toNat ≠ 0)) ↔ P)
      (h : (opField w).toNat = op.number.toNat) : decode w = .error .reservedField ↔ P :=
    (decode_eq_reservedField_iff op h).trans hP
  refine ⟨decode_eq_illegalOpcode_iff.trans (ofNumber_eq_none _), clause .nop ?_, clause .vmul ?_, clause .mmul ?_,
    clause .trans ?_, clause .venum ?_, clause .gload ?_, clause .gread ?_, clause .enc ?_, clause .cblook ?_,
    clause .hdist ?_, clause .corr ?_, clause .dech ?_, clause .decs ?_⟩ <;>
  simp [OperandClass.Rejects, Opcode.dClass, Opcode.aClass, Opcode.bClass, Opcode.usesImm, dField, aField, bField,
    immField]

end Sys2Proof

namespace Sys2Proof.Machine

/-- Settles O4: the decoder evaluated on the thirteen words of R89. -/
theorem workedEncodingsDecode : Obligations.WorkedEncodingsDecode :=
  ⟨rfl, rfl, rfl, rfl, rfl, rfl, rfl, rfl, rfl, rfl, rfl, rfl, rfl⟩

/-! ## The fault of a word that is no instruction (30_encoding.md R85, 60_exceptions.md R152) -/

theorem step_undecodable {s : State} {w : Word} {e : DecodeError} (hc : configLegal s.config = true)
    (hn : nextTurn s = .sequencer) (hp : s.pend = some w) (he : decode w = .error e) :
    step s = .next (faulted (dropTurn s) w (faultOfDecode e).number) := by
  have hp' : (dropTurn s).pend = some w := hp
  rw [step_of_legal hc, hn, ← takeFault_eq_faulted hp']
  simp only [takeTurn, sequencerStep, hp', perform, he]
  rfl

/-- Settles O6: the two codes of `step_undecodable`. -/
theorem stepFaultsOnUndecodableWord : Obligations.StepFaultsOnUndecodableWord :=
  fun _ _ hc hn hp => ⟨step_undecodable hc hn hp, step_undecodable hc hn hp⟩

/-! ## The frame of a command over the window (30_encoding.md R84, 60_exceptions.md R152) -/

theorem windowByte_congr {s t : State} {p : Nat} (h : t.image (regAt (p / 4 * 4)) = s.image (regAt (p / 4 * 4))) :
    t.windowByte p = s.windowByte p := by
  simp only [State.windowByte, State.memRead, h]

/-- Settles O28: whether the word is still pending tells an effect from a fault, and each has its frame. -/
theorem commandFrameOverTheWindow : Obligations.CommandFrameOverTheWindow := by
  intro i s t w p hp hexec _
  obtain ⟨c, rfl⟩ | he := exec_next hexec
  · exact ⟨fun hpend => by simp at hpend,
      fun _ hstatus herrInfo => windowByte_congr (image_takeFault s c hstatus herrInfo)⟩
  · obtain ⟨-, -, -, hpend, -⟩ := he.frame
    exact ⟨fun _ hwrites => windowByte_congr (he.image hwrites), fun hnone _ _ => by simp [hpend, hp] at hnone⟩

/-! ## VSET (30_encoding.md R88) -/

theorem digitsValue_lt (bits : List Bool) : digitsValue bits < 2 ^ bits.length := by
  induction bits with
  | nil => exact Nat.one_pos
  | cons b rest ih =>
    have hb : b.toNat * 2 ^ rest.length ≤ 2 ^ rest.length := mul_le_of_le_one_left' (Bool.toNat_le b)
    rw [digitsValue, List.length_cons, Nat.pow_succ]
    omega

/-- The vector at position `digitsValue bits` of the enumeration has the digits as its elements. -/
theorem enumVec_digitsValue (bits : List Bool) {j : Nat} (h : j < bits.length) :
    enumVec bits.length (digitsValue bits) j = bits[j] := by
  induction bits generalizing j with
  | nil => simp at h
  | cons b rest ih =>
    rw [enumVec, digitsValue, Nat.mul_comm, Nat.testBit_two_pow_mul_add _ (digitsValue_lt rest)]
    cases j with
    | zero => cases b <;> simp
    | succ j =>
      have hj : j < rest.length := by simpa using h
      rw [if_pos (by simp; omega), List.getElem_cons_succ, ← ih hj, enumVec]
      congr 1
      simp; omega

/-- Settles O55: VENUM of the digits' number loads the digits. -/
theorem vsetLoadsItsBits : Obligations.VsetLoadsItsBits := by
  intro s d bits h1 h10
  have hlen : (BitVec.ofNat 4 bits.length).toNat = bits.length := Nat.mod_eq_of_lt (by omega)
  have hvalue : (BitVec.ofNat 10 (digitsValue bits)).toNat = digitsValue bits :=
    Nat.mod_eq_of_lt ((digitsValue_lt bits).trans_le (Nat.pow_le_pow_right two_pos h10))
  have hexec := exec_venum (s := s) (d := d) (size := BitVec.ofNat 4 bits.length)
    (index := BitVec.ofNat 10 (digitsValue bits)) (by rw [LegalLen, hlen]; exact ⟨h1, h10⟩)
    (by rw [hlen, hvalue]; exact digitsValue_lt bits)
  refine ⟨_, _, if_pos ⟨h1, h10⟩, hexec, by simp [hlen], fun j => ?_⟩
  simp only [State.readV_writeV, if_true, pack_getLsbD, hlen, hvalue]
  by_cases hj : j < bits.length
  · simp [hj, enumVec_digitsValue bits hj]; omega
  · simp [hj]

/-! ## ENCSRC (30_encoding.md R88, 41_code_definition.md R115) -/

theorem cwAt_eq_codewordOf {g : GenRows} {cb : Codebook} {dmin : BitVec 4} (h : CodebookOf g cb dmin) {e : Nat}
    (he : e < 64) : cwAt cb e = codewordOf (genBits g) e := by
  apply BitVec.eq_of_getLsbD_eq
  intro i hi
  rw [h.cw e he i hi, codewordOf_getLsbD]
  simp [hi]

/-- Encoding the source vector of an entry, as a register holds it, gives the entry's codeword. -/
theorem pack_vm_srcVec (A : BitMatrix) (e : Nat) :
    pack 10 (vm 6 (pack 6 (enumVec 6 e)).getLsbD A) = codewordOf A e := by
  refine pack_congr fun i _ _ => xorSum_congr fun j hj => ?_
  simp [hj, show j < 10 by omega, srcVec]

/-- Settles O56: VENUM loads the source vector of the entry, and ENC multiplies it by the generator of the codebook. -/
theorem encsrcLoadsTheCodeword : Obligations.EncsrcLoadsTheCodeword := by
  intro s d e hinv hcfg
  have he : (BitVec.ofNat 10 e.val).toNat = e.val := Nat.mod_eq_of_lt (by omega)
  have hvenum := exec_venum (s := s) (d := d) (index := BitVec.ofNat 10 e.val) legalLen_six (by rw [he]; exact e.isLt)
  refine ⟨_, _, _, _, rfl, hvenum, exec_enc hcfg (by simp), ?_⟩
  rw [cwAt_eq_codewordOf (hinv.codebook hcfg) e.isLt, ← pack_vm_srcVec]
  simp [VecReg.bits, he]

/-! ## DECODE and SDECODE (30_encoding.md R88, 41_code_definition.md R116) -/

/-- CBLOOK of a codeword finds its one entry (41_code_definition.md R117). -/
theorem exec_cblook_codeword {s : State} {d a : VIdx} {e : Nat} (hinv : CodebookInv s) (hcfg : s.cfg = true)
    (he : e < 64) (ha : s.readV a = { len := 10#4, data := cwAt s.cb e }) :
    exec (.cblook d a) s = .next ((s.writeV d 6#4 (srcAt s.cb e).getLsbD).writeIdx e) :=
  exec_cblook hcfg (by rw [ha]) he (by rw [ha]) fun f hf => by
    rw [ha]; exact cwAt_ne hinv hcfg (by omega) he (by omega)

/-- What a decoder command leaves when it decides for entry `e` with the score `w` (42_decoders.md R123, R124). -/
def State.decided (s : State) (d : VIdx) (e : Nat) (w : Word) : State :=
  ((s.writeV d 10#4 (cwAt s.cb e).getLsbD).writeRes w).writeIdx e

theorem exec_dech_decided {s : State} (d : VIdx) {a : VIdx} (hcfg : s.cfg = true) (hlen : (s.readV a).len = 10#4) :
    ∃ e < 64, ∃ w, exec (.dech d a) s = .next (s.decided d e w) := by
  obtain ⟨hentry, -⟩ := hardDecision_spec s.cb (s.readV a).bits
  exact ⟨_, hentry, _, exec_dech hcfg hlen⟩

theorem exec_decs_decided {s : State} (d : VIdx) {a : SIdx} (hcfg : s.cfg = true) (hlen : (s.readS a).len = 10#4) :
    ∃ e < 64, ∃ w, exec (.decs d a) s = .next (s.decided d e w) := by
  obtain ⟨hentry, -⟩ := softDecision_spec s.cb ((s.readS a).value s.config)
  exact ⟨_, hentry, _, exec_decs hcfg hlen⟩

/-- The lookup after a decision finds the entry decided for. -/
theorem lookup_of_decided {s : State} (d : VIdx) {e : Nat} (w : Word) (hinv : CodebookInv s) (hcfg : s.cfg = true)
    (he : e < 64) :
    ∃ u, exec (.cblook d d) (s.decided d e w) = .next u ∧ u.idx = (s.decided d e w).idx ∧
      u.res = (s.decided d e w).res ∧ u.err = s.err ∧
      u.readV d = { len := 6#4, data := (srcAt s.cb (s.decided d e w).idx.toNat).setWidth 10 } := by
  have hidx : (BitVec.ofNat 6 e).toNat = e := Nat.mod_eq_of_lt he
  have hread : (s.decided d e w).readV d = { len := 10#4, data := cwAt s.cb e } := by simp [State.decided]
  refine ⟨_, exec_cblook_codeword (s := s.decided d e w) hinv hcfg he hread, rfl, rfl, rfl, ?_⟩
  simp [State.decided, hidx, pack_six]

/-- Settles O57: each decoder command decides for an entry of the codebook, whose codeword the lookup finds. -/
theorem decodeAlwaysFindsASourceVector : Obligations.DecodeAlwaysFindsASourceVector := by
  intro s d hinv hcfg
  refine ⟨fun a hlen => ?_, fun a hlen => ?_⟩
  · obtain ⟨e, he, w, hdecide⟩ := exec_dech_decided d hcfg hlen
    obtain ⟨u, hlookup, hleft⟩ := lookup_of_decided d w hinv.codebook hcfg he
    exact ⟨_, _, _, u, rfl, hdecide, hlookup, hleft⟩
  · obtain ⟨e, he, w, hdecide⟩ := exec_decs_decided d hcfg hlen
    obtain ⟨u, hlookup, hleft⟩ := lookup_of_decided d w hinv.codebook hcfg he
    exact ⟨_, _, _, u, rfl, hdecide, hlookup, hleft⟩

end Sys2Proof.Machine
end

section
/-! PROOF. The family 40_gf2_linear_algebra.md: the faults of VMUL, MMUL and TRANS, what each writes element by element, and the
laws of the three functions. -/

namespace Sys2Proof.Machine

variable {s : State} {w : Word}

/-! ## Faults (40_gf2_linear_algebra.md R101, R102, R103, 60_exceptions.md R152, R153) -/

theorem raiseFault_eq_faulted (h : s.pend = some w) (c : FaultCode) :
    raiseFault c s = .next (faulted s w c.number) := by
  rw [raiseFault, takeFault_eq_faulted h]

/-- Two checks of one fault: where either fails the fault is taken. -/
theorem ite_ite_eq_of_not_and {α : Type} {p q : Bool} (h : ¬ (p = true ∧ q = true)) (fault rest : α) :
    (if !p then fault else if !q then fault else rest) = fault := by
  cases p
  · rfl
  · obtain rfl : q = false := by simpa using h
    rfl

theorem exec_vmul_of_illegal {d a : VIdx} {b : MIdx} (h : ¬ (LegalLen (s.readV a).len ∧ LegalShape (s.readM b))) :
    exec (.vmul d a b) s = raiseFault .lenIllegal s :=
  ite_ite_eq_of_not_and (by rwa [legalLen_iff, legal_iff]) _ _

theorem exec_vmul_of_mismatch {d a : VIdx} {b : MIdx} (hx : LegalLen (s.readV a).len) (hA : LegalShape (s.readM b))
    (h : (s.readV a).len ≠ (s.readM b).height) : exec (.vmul d a b) s = raiseFault .dimMismatch s := by
  simp only [exec, execVmul, legalLen_of hx, legal_of hA, Bool.not_true, Bool.false_eq_true, if_false, if_pos h]

theorem exec_mmul_of_illegal {d a b : MIdx} (h : ¬ (LegalShape (s.readM a) ∧ LegalShape (s.readM b))) :
    exec (.mmul d a b) s = raiseFault .lenIllegal s :=
  ite_ite_eq_of_not_and (by rwa [legal_iff, legal_iff]) _ _

theorem exec_mmul_of_mismatch {d a b : MIdx} (hA : LegalShape (s.readM a)) (hB : LegalShape (s.readM b))
    (h : (s.readM a).width ≠ (s.readM b).height) : exec (.mmul d a b) s = raiseFault .dimMismatch s := by
  simp only [exec, execMmul, legal_of hA, legal_of hB, Bool.not_true, Bool.false_eq_true, if_false, if_pos h]

theorem exec_trans_of_illegal {d a : MIdx} (h : ¬ LegalShape (s.readM a)) :
    exec (.trans d a) s = raiseFault .lenIllegal s := by
  simp only [exec, execTrans, legal_of_not h, Bool.not_false, if_true]

/-- Settles O11: each check that fails raises its fault, which records the pending word. -/
theorem linearCommandFaults : Obligations.LinearCommandFaults := by
  intro s w hp
  have hlen : raiseFault .lenIllegal s = .next (faulted s w 4#4) := raiseFault_eq_faulted hp .lenIllegal
  have hdim : raiseFault .dimMismatch s = .next (faulted s w 5#4) := raiseFault_eq_faulted hp .dimMismatch
  refine ⟨fun d a b => ⟨fun h => ?_, fun hx hA h => ?_⟩, fun d a b => ⟨fun h => ?_, fun hA hB h => ?_⟩,
    fun d a h => ?_⟩
  · rw [exec_vmul_of_illegal h, hlen]
  · rw [exec_vmul_of_mismatch hx hA h, hdim]
  · rw [exec_mmul_of_illegal h, hlen]
  · rw [exec_mmul_of_mismatch hA hB h, hdim]
  · rw [exec_trans_of_illegal h, hlen]

/-! ## Results (40_gf2_linear_algebra.md R101, R102, R103) -/

theorem vm_eq_modTwoSum (h : Nat) (v : Bits) (A : BitMatrix) (i : Nat) :
    vm h v A i = modTwoSum h fun j => v j && A j i :=
  xorSum_eq_modTwoSum h _

theorem mm_eq_modTwoSum (k : Nat) (A B : BitMatrix) (i j : Nat) :
    mm k A B i j = modTwoSum k fun l => A i l && B l j :=
  xorSum_eq_modTwoSum k _

/-- A vector of legal length fits in a register, so its own length alone bounds its elements (10_state.md R29). -/
theorem pack_getLsbD_of_legal {n : BitVec 4} (hn : LegalLen n) (f : Bits) (i : Nat) :
    (pack n.toNat f).getLsbD i = (decide (i < n.toNat) && f i) := by
  obtain ⟨-, hn10⟩ := hn
  rw [pack_getLsbD]
  by_cases hi : i < n.toNat
  · simp [hi, show i < 10 by omega]
  · simp [hi]

/-- The same of a matrix of legal shape. -/
theorem bits_ofBits_of_legal {h w : BitVec 4} (hh : LegalLen h) (hw : LegalLen w) (A : BitMatrix) (i j : Nat) :
    (MatReg.ofBits h w A).bits i j = (decide (i < h.toNat) && decide (j < w.toNat) && A i j) := by
  obtain ⟨-, hh10⟩ := hh
  obtain ⟨-, hw10⟩ := hw
  rw [MatReg.bits_ofBits]
  by_cases hi : i < h.toNat
  · by_cases hj : j < w.toNat
    · simp [hi, hj, show i < 10 by omega, show j < 10 by omega]
    · simp [hj]
  · simp [hi]

/-- Settles O16: VMUL packs the product at the matrix's width. -/
theorem vmulIsTheVectorMatrixProduct : Obligations.VmulIsTheVectorMatrixProduct := by
  intro d a b s x A hx hA hdim
  refine ⟨_, exec_vmul hx hA hdim, rfl, fun i => ?_⟩
  rw [pack_getLsbD_of_legal hA.2, vm_eq_modTwoSum, VecReg.bits]

/-- Settles O17: MMUL stores the product at the height of A and the width of B. -/
theorem mmulIsTheMatrixProduct : Obligations.MmulIsTheMatrixProduct := by
  intro d a b s A B hA hB hdim
  refine ⟨_, exec_mmul hA hB hdim, rfl, rfl, fun i j => ?_⟩
  rw [bits_ofBits_of_legal hA.1 hB.2, mm_eq_modTwoSum]

/-- Settles O18: TRANS stores the transpose with the two dimensions swapped. -/
theorem transSwapsRowsAndColumns : Obligations.TransSwapsRowsAndColumns := by
  intro d a s A hA
  refine ⟨_, exec_trans hA, rfl, rfl, fun i j => ?_⟩
  rw [bits_ofBits_of_legal hA.2 hA.1, tr]

/-! ## Laws (40_gf2_linear_algebra.md R104) -/

theorem tr_mm (k : Nat) (A B : BitMatrix) : tr (mm k A B) = mm k (tr B) (tr A) := by
  funext i j
  simp only [tr, mm, Bool.and_comm]

theorem vm_xor (h : Nat) (u v : Bits) (A : BitMatrix) (i : Nat) :
    vm h (fun j => u j ^^ v j) A i = (vm h u A i ^^ vm h v A i) := by
  simp only [vm, Bool.and_xor_distrib_right, xorSum_xor]

theorem vm_zero (h : Nat) (A : BitMatrix) (i : Nat) : vm h (fun _ => false) A i = false := by
  simp only [vm, Bool.false_and, xorSum_false]

theorem vm_unit {h r : Nat} (hr : r < h) (A : BitMatrix) (i : Nat) : vm h (fun j => decide (j = r)) A i = A r i :=
  xorSum_single hr fun j => A j i

/-- Settles O50: the first two laws are the definitions', the others follow from the sum over GF(2). -/
theorem linearAlgebraLaws : Obligations.LinearAlgebraLaws :=
  fun h k u v A B => ⟨fun _ => rfl, rfl, tr_mm k A B, vm_xor h u v A, vm_zero h A, fun _ hr => vm_unit hr A⟩

end Sys2Proof.Machine
end

section
/-! PROOF. The family 41_code_definition.md: the order of the enumeration, the faults and the results of the
code-definition commands, what may change the code, and the round trip of a source vector. -/

namespace Sys2Proof.Machine

/-! ## The enumeration of the binary vectors (41_code_definition.md R111) -/

/-- Two positions below `2 ^ n` that hold one vector are one position. -/
theorem enumVec_inj {n x y : Nat} (hx : x < 2 ^ n) (hy : y < 2 ^ n) (h : ∀ j < n, enumVec n x j = enumVec n y j) :
    x = y := by
  refine Nat.eq_of_testBit_eq fun i => ?_
  by_cases hi : i < n
  · have hbit := h (n - 1 - i) (by omega)
    rwa [enumVec, enumVec, show n - 1 - (n - 1 - i) = i by omega] at hbit
  · have hpow : 2 ^ n ≤ 2 ^ i := Nat.pow_le_pow_right two_pos (Nat.not_lt.1 hi)
    rw [Nat.testBit_lt_two_pow (hx.trans_le hpow), Nat.testBit_lt_two_pow (hy.trans_le hpow)]

/-- Every vector of length `n` stands at a position: the number its elements are the binary digits of. -/
theorem exists_enumVec_eq (n : Nat) (f : Bits) : ∃ x < 2 ^ n, ∀ j < n, enumVec n x j = f j := by
  obtain ⟨bits, rfl, hbits⟩ : ∃ bits : List Bool, bits.length = n ∧ ∀ j (hj : j < bits.length), bits[j] = f j :=
    ⟨(List.range n).map f, by simp, by simp⟩
  exact ⟨digitsValue bits, digitsValue_lt bits, fun j hj => (enumVec_digitsValue bits hj).trans (hbits j hj)⟩

/-- The elements before the last of an extension are those of the vector extended. -/
theorem enumVec_extend_init (n y : Nat) (b : Bool) {j : Nat} (hj : j < n) :
    enumVec (n + 1) (2 * y + b.toNat) j = enumVec n y j := by
  rw [enumVec, enumVec, ← Nat.bit_val, show n + 1 - 1 - j = n - 1 - j + 1 by omega, Nat.testBit_bit_succ]

theorem enumVec_extend_last (n y : Nat) (b : Bool) : enumVec (n + 1) (2 * y + b.toNat) n = b := by
  rw [enumVec, ← Nat.bit_val, Nat.add_sub_cancel, Nat.sub_self, Nat.testBit_bit_zero]

/-- Settles O51: the position of a vector is the number its elements write in binary. -/
theorem enumerationOrder : Obligations.EnumerationOrder := by
  refine ⟨fun _ _ _ _ => rfl, fun n f => ?_, fun n y b _ => ⟨fun j hj => enumVec_extend_init n y b hj,
    enumVec_extend_last n y b⟩, fun _ _ => rfl, fun n x hn j hj => ?_⟩
  · obtain ⟨x, hx, hxf⟩ := exists_enumVec_eq n f
    exact ⟨x, hx, hxf, fun y hy hyf => enumVec_inj hy hx fun j hj => (hyf j hj).trans (hxf j hj).symm⟩
  · rw [pack_getLsbD, enumVec]
    simp [hj, hj.trans_le hn]

/-! ## Faults (41_code_definition.md R112 to R116, 60_exceptions.md R152, R153) -/

section
variable {s : State}

theorem exec_venum_of_out_of_range {d : VIdx} {size : BitVec 4} {index : BitVec 10}
    (h : ¬ (LegalLen size ∧ index.toNat < 2 ^ size.toNat)) : exec (.venum d size index) s = raiseFault .immRange s := by
  simp only [exec, execVenum]
  by_cases hs : LegalLen size
  · have hindex : 2 ^ size.toNat ≤ index.toNat := Nat.not_lt.1 fun hlt => h ⟨hs, hlt⟩
    simp only [if_pos hindex, ite_self]
  · simp only [legalLen_of_not hs, Bool.not_false, if_true]

theorem exec_gload_of_illegal {a : MIdx} (h : ¬ LegalShape (s.readM a)) :
    exec (.gload a) s = raiseFault .lenIllegal s := by
  simp only [exec, execGload, legal_of_not h, Bool.not_false, if_true]

theorem exec_gload_of_mismatch {a : MIdx} (hA : LegalShape (s.readM a))
    (h : ¬ ((s.readM a).height = 6#4 ∧ (s.readM a).width = 10#4)) :
    exec (.gload a) s = raiseFault .dimMismatch s := by
  have hdims : (s.readM a).height.toNat ≠ sourceLen ∨ (s.readM a).width.toNat ≠ codeLen := by
    rwa [← not_and_or, sourceLen, codeLen, toNat_eq_six, toNat_eq_ten]
  simp only [exec, execGload, legal_of hA, Bool.not_true, Bool.false_eq_true, if_false, if_pos hdims]

theorem exec_gload_of_not_injective {a : MIdx} (hh : (s.readM a).height = 6#4) (hw : (s.readM a).width = 10#4)
    (h : ¬ InjectiveCode (s.readM a).bits) : exec (.gload a) s = raiseFault .notInjective s := by
  have hA : LegalShape (s.readM a) := ⟨hh ▸ legalLen_six, hw ▸ legalLen_ten⟩
  have hinj : injective (buildCodebook (s.readM a).bits) = false := by
    rwa [← injective_build_iff, Bool.not_eq_true] at h
  simp only [exec, execGload, legal_of hA, hinj, toNat_eq_six, toNat_eq_ten, hh, hw, sourceLen, codeLen, ne_eq,
    not_true_eq_false, or_self, Bool.not_true, Bool.not_false, Bool.false_eq_true, if_false, if_true]

theorem exec_gread_of_unconfigured {d : MIdx} (h : s.cfg = false) :
    exec (.gread d) s = raiseFault .notConfigured s := by
  simp only [exec, execGread, h, Bool.not_false, if_true]

/-- The checks of a command that uses the code on an operand of length `len`, where the code's is `n`: configured, then
the length legal, then equal; `o` is what follows them. -/
def State.checkCodeOperand (s : State) (len n : BitVec 4) (o : Host.Outcome State Fault Refusal) :
    Host.Outcome State Fault Refusal :=
  if !s.cfg then raiseFault .notConfigured s
  else if !legalLen len then raiseFault .lenIllegal s
  else if len.toNat ≠ n.toNat then raiseFault .dimMismatch s
  else o

/-- The three checks in their order, each with the fault it takes. -/
theorem checkCodeOperand_faults {w : Word} (hp : s.pend = some w) (len n : BitVec 4)
    (o : Host.Outcome State Fault Refusal) :
    (s.cfg = false → s.checkCodeOperand len n o = .next (faulted s w 3#4)) ∧
    (s.cfg = true → ¬ LegalLen len → s.checkCodeOperand len n o = .next (faulted s w 4#4)) ∧
    (s.cfg = true → LegalLen len → len ≠ n → s.checkCodeOperand len n o = .next (faulted s w 5#4)) := by
  refine ⟨fun h => ?_, fun h hlen => ?_, fun h hlen hne => ?_⟩ <;> simp only [State.checkCodeOperand, h]
  · exact raiseFault_eq_faulted hp .notConfigured
  · rw [legalLen_of_not hlen]
    exact raiseFault_eq_faulted hp .lenIllegal
  · rw [legalLen_of hlen]
    simp only [ne_eq, BitVec.toNat_inj, hne]
    exact raiseFault_eq_faulted hp .dimMismatch

theorem checkCodeOperand_of_fit {n : BitVec 4} (h : s.cfg = true) (hlen : LegalLen n)
    (o : Host.Outcome State Fault Refusal) : s.checkCodeOperand n n o = o := by
  simp only [State.checkCodeOperand, h, legalLen_of hlen, ne_eq, not_true_eq_false, Bool.not_true, Bool.false_eq_true,
    if_false]

theorem exec_enc_checked (s : State) (d a : VIdx) :
    ∃ o, exec (.enc d a) s = s.checkCodeOperand (s.readV a).len 6#4 o := ⟨_, rfl⟩

/-- CBLOOK makes the checks, then searches the codebook. -/
theorem exec_cblook_checked (s : State) (d a : VIdx) :
    ∃ o, exec (.cblook d a) s = s.checkCodeOperand (s.readV a).len 10#4 o ∧
      ((∀ e < 64, cwAt s.cb e ≠ (s.readV a).data) → o = raiseFault .notCodeword s) := by
  refine ⟨_, rfl, fun h => ?_⟩
  have hfind : findFrom (fun e => cwAt s.cb e == (s.readV a).data) 0 codebookSize = none :=
    findFrom_none.2 fun e _ he => beq_false_of_ne (h e (by simpa using he))
  simp only [hfind]

end

/-- Settles O12: each check that fails raises its fault, which records the pending word. -/
theorem codeCommandFaults : Obligations.CodeCommandFaults := by
  intro s w hp
  have fault (c : FaultCode) : raiseFault c s = .next (faulted s w c.number) := raiseFault_eq_faulted hp c
  refine ⟨fun d size index h => ?_, fun a => ⟨fun h => ?_, fun hA h => ?_, fun hh hw h => ?_⟩, fun d h => ?_,
    fun d a => ?_⟩
  · exact (exec_venum_of_out_of_range h).trans (fault .immRange)
  · exact (exec_gload_of_illegal h).trans (fault .lenIllegal)
  · exact (exec_gload_of_mismatch hA h).trans (fault .dimMismatch)
  · exact (exec_gload_of_not_injective hh hw h).trans (fault .notInjective)
  · exact (exec_gread_of_unconfigured h).trans (fault .notConfigured)
  · obtain ⟨enc, henc⟩ := exec_enc_checked s d a
    obtain ⟨lookup, hcblook, hmiss⟩ := exec_cblook_checked s d a
    rw [henc, hcblook]
    obtain ⟨hencCfg, hencLen, hencDim⟩ := checkCodeOperand_faults hp (s.readV a).len 6#4 enc
    obtain ⟨hlookCfg, hlookLen, hlookDim⟩ := checkCodeOperand_faults hp (s.readV a).len 10#4 lookup
    refine ⟨hencCfg, hencLen, hencDim, hlookCfg, hlookLen, hlookDim, fun hcfg hlen hnone => ?_⟩
    rw [hlen, checkCodeOperand_of_fit hcfg legalLen_ten, hmiss hnone]
    exact fault .notCodeword

/-! ## Results (41_code_definition.md R112 to R116) -/

/-- Settles O19: VENUM packs the vector at its position of the enumeration. -/
theorem venumLoadsTheEnumeratedVector : Obligations.VenumLoadsTheEnumeratedVector := by
  intro d size index s hs hi
  exact ⟨_, exec_venum hs hi, rfl, pack_getLsbD_of_legal hs _⟩

/-- Settles O20: what GLOAD installs is the code of the matrix. -/
theorem gloadInstallsTheCode : Obligations.GloadInstallsTheCode := by
  intro a s A hh hw hinj
  exact ⟨_, _, _, exec_gload hh hw hinj, fun r hr c hc => genBits_ofRows A.bits hr hc,
    codebookOf_install ((injective_build_iff _).2 hinj)⟩

/-- Settles O21: GREAD stores the generator's elements as a 6 x 10 matrix. -/
theorem greadCopiesTheGenerator : Obligations.GreadCopiesTheGenerator := by
  intro d s hcfg
  exact ⟨_, exec_gread hcfg, rfl, rfl, bits_ofBits_of_legal legalLen_six legalLen_ten _⟩

/-- Settles O22: ENC packs the product with the generator at the code's length. -/
theorem encMultipliesByTheGenerator : Obligations.EncMultipliesByTheGenerator := by
  intro d a s hcfg hlen
  refine ⟨_, exec_enc hcfg hlen, rfl, fun i hi => ?_⟩
  rw [pack_getLsbD_of_legal legalLen_ten, vm_eq_modTwoSum, VecReg.bits]
  simp [hi]

/-- Settles O23: CBLOOK stops at the first entry that holds the codeword. -/
theorem cblookFindsTheEntry : Obligations.CblookFindsTheEntry := by
  intro d a s e hcfg hlen he hcw hleast
  exact ⟨_, exec_cblook hcfg hlen he hcw hleast, rfl, pack_six _⟩

/-! ## What may change the code (41_code_definition.md R117) -/

/-- `t` has the generator, codebook, minimum distance and CFG of `s`. -/
def SameCode (s t : State) : Prop := t.g = s.g ∧ t.cb = s.cb ∧ t.dmin = s.dmin ∧ t.cfg = s.cfg

theorem SameCode.rfl {s : State} : SameCode s s := ⟨.refl _, .refl _, .refl _, .refl _⟩

theorem CodebookInv.of_sameCode {s t : State} (hinv : CodebookInv s) (h : SameCode s t) : CodebookInv t := by
  obtain ⟨hg, hcb, hdmin, hcfg⟩ := h
  intro ht
  rw [hg, hcb, hdmin]
  exact hinv (hcfg ▸ ht)

/-- Reset leaves CFG = 0, or the code of the configured matrix. -/
theorem codebookInv_resetBlock {s : State} (hc : configLegal s.config = true) : CodebookInv s.resetBlock := by
  intro hcfg
  cases hG : s.config.gReset with
  | none => simp [State.resetBlock, State.resetWith, hG] at hcfg
  | some G =>
    have hg : s.resetBlock.g = G := by simp [State.resetBlock, State.resetWith, hG]
    rw [hg]
    exact codebookOf_reset hG hc

theorem storeReg_sameCode (s : State) (w : Word) {r : WinReg} (hctrl : r ≠ .ctrl) : SameCode s (s.storeReg w r) := by
  cases r
  case ctrl => exact absurd rfl hctrl
  case cmd =>
    simp only [State.storeReg, State.offerCommand]
    split_ifs <;> exact .rfl
  all_goals exact .rfl

/-- A host access leaves the code, or is a soft reset. -/
theorem accessEffect_code (s : State) (a : Access) :
    SameCode s (accessEffect s a) ∨
      ∃ w, a = .write 0x00C 4 w ∧ w.getLsbD 0 = true ∧ accessEffect s a = s.resetBlock := by
  cases a with
  | read => exact .inl .rfl
  | write off size w =>
    by_cases hok : accessOk off size = true
    · obtain ⟨rfl, halign, hlt⟩ := accessOk_iff.1 hok
      by_cases hctrl : regAt off = .ctrl
      · obtain rfl := regAt_eq_ctrl halign hlt hctrl
        have heffect : accessEffect s (.write 0x00C 4 w) = s.control w := rfl
        rw [heffect]
        cases h0 : w.getLsbD 0
        · cases h1 : w.getLsbD 1
          · exact .inl (control_none h0 h1 ▸ .rfl)
          · exact .inl (control_clrerr h0 h1 ▸ .rfl)
        · exact .inr ⟨w, rfl, h0, control_srst h0⟩
      · refine .inl ?_
        simp only [accessEffect, hok, if_true]
        exact storeReg_sameCode s w hctrl
    · refine .inl ?_
      simp only [accessEffect, hok, Bool.false_eq_true, if_false]
      exact .rfl

/-- A sequencer's step leaves the code, or performs a GLOAD that installs one. -/
theorem sequencerStep_code {s t : State} (h : sequencerStep s = .next t) :
    SameCode s t ∨
      (t.cfg = true ∧ CodebookOf t.g t.cb t.dmin ∧ ∃ w a, s.pend = some w ∧ decode w = .ok (.gload a)) := by
  obtain ⟨-, h'⟩ | ⟨w, u, hp, h', hu⟩ := sequencerStep_cases s <;> rw [h'] at h <;> cases h
  · exact .inl .rfl
  · obtain ⟨c, rfl⟩ | ⟨i, hi, he⟩ := hu
    · exact .inl .rfl
    · by_cases hgload : ∃ a, i = .gload a
      · obtain ⟨a, rfl⟩ := hgload
        obtain ⟨hinj, rfl⟩ := he
        exact .inr ⟨rfl, codebookOf_install hinj, w, a, hp, hi⟩
      · exact .inl (he.code (not_exists.1 hgload))

/-- Settles O46: a turn leaves the code, installs the code of an injective matrix, or resets. -/
theorem onlyGloadAndResetChangeTheCode : Obligations.OnlyGloadAndResetChangeTheCode := by
  intro s t hinv hst
  obtain ⟨hc, ht⟩ := step_next hst
  cases hn : nextTurn s with
  | sequencer =>
    rw [hn] at ht
    obtain hsame | ⟨hcfg, hcode, hgload⟩ := sequencerStep_code (s := dropTurn s) ht
    · exact ⟨hinv.of_sameCode hsame, .inl hsame⟩
    · exact ⟨fun _ => hcode, .inr (.inl ⟨rfl, hcfg, hgload⟩)⟩
  | hardReset cut =>
    rw [hn] at ht
    cases ht
    exact ⟨codebookInv_resetBlock (s := dropTurn s) hc, .inr (.inr (.inl ⟨cut, rfl⟩))⟩
  | host a =>
    rw [hn] at ht
    cases ht
    obtain hsame | ⟨w, rfl, hw, hreset⟩ := accessEffect_code (dropTurn s) a
    · exact ⟨hinv.of_sameCode hsame, .inl hsame⟩
    · refine ⟨?_, .inr (.inr (.inr ⟨w, rfl, hw⟩))⟩
      rw [hostAccess, hreset]
      exact codebookInv_resetBlock (s := dropTurn s) hc

/-! ## The round trip of a source vector (41_code_definition.md R115, R116, 42_decoders.md R125) -/

/-- The source vector of an entry, as a register holds it, is the vector at the entry's position. -/
theorem srcAt_setWidth {g : GenRows} {cb : Codebook} {dmin : BitVec 4} (h : CodebookOf g cb dmin) {e : Nat}
    (he : e < 64) : (srcAt cb e).setWidth 10 = pack 6 (enumVec 6 e) := by
  rw [← pack_six]
  exact pack_congr fun j hj _ => h.src e he j hj

/-- A vector register keeps of a result only its packed form. -/
theorem writeV_congr (s : State) (d : VIdx) {n : BitVec 4} {f g : Bits} (h : pack n.toNat f = pack n.toNat g) :
    s.writeV d n f = s.writeV d n g := by
  rw [State.writeV, State.writeV, h]

/-- ENC of the source vector of an entry writes the entry's codeword. -/
theorem exec_enc_source {s : State} (d : VIdx) {a : VIdx} {e : Nat} (hinv : CodebookInv s) (hcfg : s.cfg = true)
    (he : e < 64) (ha : s.readV a = { len := 6#4, data := (srcAt s.cb e).setWidth 10 }) :
    exec (.enc d a) s = .next (s.writeV d 10#4 (cwAt s.cb e).getLsbD) := by
  have hpack : pack 10 (vm 6 (s.readV a).bits (genBits s.g)) = pack 10 (cwAt s.cb e).getLsbD := by
    rw [ha, VecReg.bits, srcAt_setWidth (hinv hcfg) he, pack_vm_srcVec, ← cwAt_eq_codewordOf (hinv hcfg) he,
      pack_ten_getLsbD]
  rw [exec_enc hcfg (by rw [ha]), writeV_congr s d (n := 10#4) hpack]

/-- An entry nearer to the vector than every other is the one decided for. -/
theorem hardDecision_of_nearest {cb : Codebook} {r : Bits} {e : Nat} (he : e < 64)
    (h : ∀ f < 64, f ≠ e → distance 10 (cwAt cb e).getLsbD r < distance 10 (cwAt cb f).getLsbD r) :
    hardDecision cb r = (e, distance 10 (cwAt cb e).getLsbD r) := by
  obtain ⟨hentry, hdist, hleast, -⟩ := hardDecision_spec cb r
  have hbest : (hardDecision cb r).1 = e := by
    by_contra hne
    exact Nat.not_le.2 (h _ hentry hne) (hleast e he)
  exact Prod.ext hbest (by rw [hdist, hbest])

/-- The hard decision for a codeword is its entry, at distance 0. -/
theorem hardDecision_codeword {s : State} (hinv : CodebookInv s) (hcfg : s.cfg = true) {e : Nat} (he : e < 64) :
    hardDecision s.cb (cwAt s.cb e).getLsbD = (e, 0) := by
  rw [hardDecision_of_nearest he, distance_self]
  intro f hf hne
  rw [distance_self]
  exact distance_pos (cwAt_ne hinv hcfg hf he hne)

/-- DECH of a codeword decides for its entry, at distance 0. -/
theorem exec_dech_codeword {s : State} (d : VIdx) {a : VIdx} {e : Nat} (hinv : CodebookInv s) (hcfg : s.cfg = true)
    (he : e < 64) (ha : s.readV a = { len := 10#4, data := cwAt s.cb e }) :
    exec (.dech d a) s = .next (s.decided d e 0#32) := by
  rw [exec_dech hcfg (by rw [ha]), ha, VecReg.bits, hardDecision_codeword hinv hcfg he]
  rfl

/-- Settles O52: ENC leaves the codeword of the entry in `V[d]`, where CBLOOK and DECH both find it. -/
theorem encodeThenLookUpRoundTrip : Obligations.EncodeThenLookUpRoundTrip := by
  intro s d a e hblock hcfg he ha
  have hinv := hblock.codebook
  have hidx : (BitVec.ofNat 6 e).toNat = e := Nat.mod_eq_of_lt he
  have hcw : (s.writeV d 10#4 (cwAt s.cb e).getLsbD).readV d = { len := 10#4, data := cwAt s.cb e } := by simp
  refine ⟨_, _, _, exec_enc_source d hinv hcfg he ha, hcw, exec_cblook_codeword hinv hcfg he hcw, ?_, hidx,
    exec_dech_codeword d hinv hcfg he hcw, ?_, hidx, rfl⟩
  · simp [ha, pack_six]
  · simp [State.decided]

end Sys2Proof.Machine
end

section
/-! PROOF. The family 42_decoders.md: the faults and the results of HDIST, CORR, DECH and DECS, the correction radius of the
hard decoder, and the round trip of the soft decoder. -/

namespace Sys2Proof.Machine

variable {s : State}

/-! ## Faults (42_decoders.md R121 to R124, 60_exceptions.md R152, R153) -/

/-- The checks of a command on two operands of one length: both lengths legal, then equal; `o` is what follows them. -/
def State.checkLenPair (s : State) (m n : BitVec 4) (o : Host.Outcome State Fault Refusal) :
    Host.Outcome State Fault Refusal :=
  if !legalLen m then raiseFault .lenIllegal s
  else if !legalLen n then raiseFault .lenIllegal s
  else if m ≠ n then raiseFault .dimMismatch s
  else o

/-- The checks in their order, each with the fault it takes. -/
theorem checkLenPair_faults {w : Word} (hp : s.pend = some w) (m n : BitVec 4) (o : Host.Outcome State Fault Refusal) :
    (¬ (LegalLen m ∧ LegalLen n) → s.checkLenPair m n o = .next (faulted s w 4#4)) ∧
    (LegalLen m → LegalLen n → m ≠ n → s.checkLenPair m n o = .next (faulted s w 5#4)) := by
  refine ⟨fun h => ?_, fun hm hn hne => ?_⟩
  · rw [State.checkLenPair, ite_ite_eq_of_not_and (by rwa [legalLen_iff, legalLen_iff])]
    exact raiseFault_eq_faulted hp .lenIllegal
  · simp only [State.checkLenPair, legalLen_of hm, legalLen_of hn, Bool.not_true, Bool.false_eq_true, if_false, if_pos hne]
    exact raiseFault_eq_faulted hp .dimMismatch

theorem exec_hdist_checked (s : State) (a b : VIdx) :
    ∃ o, exec (.hdist a b) s = s.checkLenPair (s.readV a).len (s.readV b).len o := ⟨_, rfl⟩

theorem exec_corr_checked (s : State) (a : SIdx) (b : VIdx) :
    ∃ o, exec (.corr a b) s = s.checkLenPair (s.readS a).len (s.readV b).len o := ⟨_, rfl⟩

theorem exec_dech_checked (s : State) (d a : VIdx) :
    ∃ o, exec (.dech d a) s = s.checkCodeOperand (s.readV a).len 10#4 o := ⟨_, rfl⟩

theorem exec_decs_checked (s : State) (d : VIdx) (a : SIdx) :
    ∃ o, exec (.decs d a) s = s.checkCodeOperand (s.readS a).len 10#4 o := ⟨_, rfl⟩

/-- Settles O13: HDIST and CORR make the checks of a pair of lengths, DECH and DECS those of an operand of the code. -/
theorem decoderCommandFaults : Obligations.DecoderCommandFaults := by
  intro s w hp
  refine ⟨fun a b => ?_, fun a b => ?_, fun d a => ?_, fun d a => ?_⟩
  · obtain ⟨o, hexec⟩ := exec_hdist_checked s a b
    exact hexec ▸ checkLenPair_faults hp _ _ o
  · obtain ⟨o, hexec⟩ := exec_corr_checked s a b
    exact hexec ▸ checkLenPair_faults hp _ _ o
  · obtain ⟨o, hexec⟩ := exec_dech_checked s d a
    exact hexec ▸ checkCodeOperand_faults hp _ _ o
  · obtain ⟨o, hexec⟩ := exec_decs_checked s d a
    exact hexec ▸ checkCodeOperand_faults hp _ _ o

/-! ## Distance and correlation (42_decoders.md R121, R122) -/

theorem popcount_xor (x y : Packed) : popcount (x ^^^ y) = distance 10 x.getLsbD y.getLsbD := by
  rw [popcount, ← hd_eq_distance, hd]
  congr 1
  funext i
  rw [BitVec.getLsbD_xor]

/-- Positions from `m` on at which the vectors agree add nothing to their distance. -/
theorem distance_of_agree {m n : Nat} {a b : Bits} (hmn : m ≤ n) (h : ∀ i, m ≤ i → a i = b i) :
    distance n a b = distance m a b := by
  simp only [distance]
  congr 1
  ext i
  simp only [Finset.mem_filter, Finset.mem_range]
  refine and_congr_left fun hne => ⟨fun _ => ?_, fun hi => by omega⟩
  exact Nat.not_le.1 fun hi => hne (h i hi)

/-- Settles O24: HDIST counts over the whole data field, and the two fields are 0 at and above the length. -/
theorem hdistCountsDifferingPositions : Obligations.HdistCountsDifferingPositions := by
  intro a b s hinv hlegal hlen
  have hagree : ∀ i, (s.readV a).len.toNat ≤ i → (s.readV a).data.getLsbD i = (s.readV b).data.getLsbD i := fun i hi =>
    (hinv.vectors a i hi).trans (hinv.vectors b i (hlen ▸ hi)).symm
  rw [exec_hdist hlegal hlen, popcount_xor, distance_of_agree hlegal.2 hagree]
  rfl

/-- Settles O25: ten samples of at most 27 bits give a sum that fits in RES. -/
theorem corrIsTheExactCorrelation : Obligations.CorrIsTheExactCorrelation := by
  intro a b s hc hlegal hlen
  refine ⟨_, exec_corr hlegal hlen, ?_⟩
  rw [corr_eq_correlation]
  exact toInt_ofInt_correlation hc _ hlegal.2 _

/-! ## Decisions (42_decoders.md R123, R124) -/

/-- The state a decoder command leaves, field by field. -/
theorem decided_eq (s : State) (d : VIdx) (e : Nat) (w : Word) :
    s.decided d e w =
      { s with v := s.v.set d { len := 10#4, data := cwAt s.cb e }, res := w, idx := BitVec.ofNat 6 e } := by
  have hpack : pack (10#4).toNat (cwAt s.cb e).getLsbD = cwAt s.cb e := pack_ten_getLsbD _
  rw [State.decided, State.writeV, hpack]
  rfl

@[simp] theorem decided_idx (s : State) (d : VIdx) {e : Nat} (w : Word) (he : e < 64) :
    (s.decided d e w).idx.toNat = e := Nat.mod_eq_of_lt he

@[simp] theorem decided_readV (s : State) (d : VIdx) (e : Nat) (w : Word) :
    (s.decided d e w).readV d = { len := 10#4, data := cwAt s.cb e } := by
  simp [State.decided]

theorem exec_dech_eq_decided {d a : VIdx} (hcfg : s.cfg = true) (hlen : (s.readV a).len = 10#4) :
    exec (.dech d a) s =
      .next (s.decided d (hardDecision s.cb (s.readV a).bits).1
        (BitVec.ofNat 32 (hardDecision s.cb (s.readV a).bits).2)) := exec_dech hcfg hlen

theorem exec_decs_eq_decided {d : VIdx} {a : SIdx} (hcfg : s.cfg = true) (hlen : (s.readS a).len = 10#4) :
    exec (.decs d a) s =
      .next (s.decided d (softDecision s.cb ((s.readS a).value s.config)).1
        (BitVec.ofInt 32 (softDecision s.cb ((s.readS a).value s.config)).2)) := exec_decs hcfg hlen

/-- Settles O26: the entry is the hard decision's. -/
theorem dechFindsTheNearestCodeword : Obligations.DechFindsTheNearestCodeword := by
  intro d a s hcfg hlen dist
  obtain ⟨hentry, hdist, hleast, hfirst⟩ := hardDecision_spec s.cb (s.readV a).bits
  refine ⟨_, hentry, ?_, hleast, hfirst⟩
  rw [exec_dech_eq_decided hcfg hlen, hdist, decided_eq]
  rfl

/-- Settles O27: the entry is the soft decision's, and its score fits in RES. -/
theorem decsFindsTheBestCorrelation : Obligations.DecsFindsTheBestCorrelation := by
  intro d a s hc hcfg hlen score
  obtain ⟨hentry, hscore, hgreatest, hfirst⟩ := softDecision_spec s.cb ((s.readS a).value s.config)
  refine ⟨_, hentry, _, ?_, (toInt_ofInt_softDecision hc _ s.cb).trans hscore, hgreatest, hfirst⟩
  rw [exec_decs_eq_decided hcfg hlen, decided_eq]

/-! ## The correction radius and the soft round trip (42_decoders.md R125) -/

/-- DMIN is at most the distance of any two entries. -/
theorem dmin_le_distance {g : GenRows} {cb : Codebook} {dmin : BitVec 4} (h : CodebookOf g cb dmin) {e f : Nat}
    (he : e < 64) (hf : f < 64) (hne : e ≠ f) :
    dmin.toNat ≤ distance 10 (cwAt cb e).getLsbD (cwAt cb f).getLsbD := by
  rcases Nat.lt_or_gt_of_ne hne with hlt | hgt
  · exact h.dminLe e f hlt hf
  · rw [distance_comm]
    exact h.dminLe f e hgt he

/-- A vector within half the minimum distance of a codeword is nearer to it than to every other. -/
theorem distance_lt_of_within_radius {g : GenRows} {cb : Codebook} {dmin : BitVec 4} (h : CodebookOf g cb dmin) {r : Bits}
    {e f : Nat} (he : e < 64) (hf : f < 64) (hne : f ≠ e) (hr : 2 * distance 10 (cwAt cb e).getLsbD r < dmin.toNat) :
    distance 10 (cwAt cb e).getLsbD r < distance 10 (cwAt cb f).getLsbD r := by
  have hdmin := dmin_le_distance h he hf hne.symm
  have htriangle := distance_triangle 10 (cwAt cb e).getLsbD r (cwAt cb f).getLsbD
  rw [distance_comm 10 r] at htriangle
  omega

/-- Settles O53: the codeword is the nearest one, by the triangle inequality. -/
theorem hardDecoderCorrectsWithinRadius : Obligations.HardDecoderCorrectsWithinRadius := by
  intro s d a e hinv hcfg he hlen hradius
  rw [distance_comm] at hradius ⊢
  have hdecision : hardDecision s.cb (s.readV a).bits = (e, distance 10 (cwAt s.cb e).getLsbD (s.readV a).bits) :=
    hardDecision_of_nearest he fun f hf hne =>
      distance_lt_of_within_radius (hinv.codebook hcfg) he hf hne hradius
  have hle := distance_le 10 (cwAt s.cb e).getLsbD (s.readV a).bits
  refine ⟨_, exec_dech_eq_decided hcfg hlen, ?_⟩
  rw [hdecision]
  exact ⟨decided_idx s d _ he, decided_readV s d e _, Nat.mod_eq_of_lt (by omega)⟩

/-- An entry with a greater correlation than every other is the one decided for. -/
theorem softDecision_of_best {cb : Codebook} {x : Nat → Int} {e : Nat} (he : e < 64)
    (h : ∀ f < 64, f ≠ e → correlation 10 x (cwAt cb f).getLsbD < correlation 10 x (cwAt cb e).getLsbD) :
    softDecision cb x = (e, correlation 10 x (cwAt cb e).getLsbD) := by
  obtain ⟨hentry, hscore, hgreatest, -⟩ := softDecision_spec cb x
  have hbest : (softDecision cb x).1 = e := by
    by_contra hne
    exact not_le.2 (h _ hentry hne) (hgreatest e he)
  exact Prod.ext hbest (by rw [hscore, hbest])

/-- The soft decision for the noiseless image of a codeword is its entry, with the score of ten matching signs. -/
theorem softDecision_bpsk {x : Nat → Int} {e : Nat} {amp : Int} (hinv : CodebookInv s) (hcfg : s.cfg = true)
    (he : e < 64) (hamp : 0 < amp) (hx : ∀ k < 10, x k = if (cwAt s.cb e).getLsbD k = true then amp else -amp) :
    softDecision s.cb x = (e, 10 * amp) := by
  have hself : correlation 10 x (cwAt s.cb e).getLsbD = 10 * amp := by
    rw [correlation_bpsk 10 hx, distance_self]
    ring
  rw [softDecision_of_best he, hself]
  intro f hf hne
  rw [hself, correlation_bpsk 10 hx, mul_comm]
  have hpos := distance_pos (cwAt_ne hinv hcfg hf he hne)
  exact mul_lt_mul_of_pos_right (by omega) hamp

/-- Settles O54: every other codeword differs somewhere, which costs it twice the amplitude. -/
theorem softDecoderRoundTrip : Obligations.SoftDecoderRoundTrip := by
  intro s d a e amp hc hinv hcfg he hamp hlen hx
  have hdecision := softDecision_bpsk hinv.codebook hcfg he hamp hx
  refine ⟨_, exec_decs_eq_decided hcfg hlen, ?_⟩
  have hexact := toInt_ofInt_softDecision hc (s.readS a) s.cb
  rw [hdecision] at hexact ⊢
  exact ⟨decided_idx s d _ he, decided_readV s d e _, hexact⟩

end Sys2Proof.Machine
end

section
/-! PROOF. The family 43_control.md: NOP, the step of a pending command, when a step is refused, that a pending command is
performed, and what the end of the host's wait and of a run leaves. -/

namespace Sys2Proof.Machine

/-! ## The step (43_control.md R131, R132) -/

/-- Settles O7: every turn answers a next state, and the refusal is the step's other branch. -/
theorem stepIsTotalOnLegalConfigurations : Obligations.StepIsTotalOnLegalConfigurations := by
  intro s
  simp only [← configLegal_iff]
  refine ⟨fun hc => ?_, fun hc => if_neg hc⟩
  rw [step_of_legal hc]
  exact takeTurn_next _ _

/-- Settles O5: a legal configuration's step is the sequencer's, which retires the outcome of `exec`. -/
theorem stepPerformsThePendingCommand : Obligations.StepPerformsThePendingCommand := by
  intro s t w i hc hn hp hd he
  rw [step_of_legal hc, hn]
  exact sequencerStep_of_exec (s := dropTurn s) hp hd he

/-! ## NOP (43_control.md R133) -/

/-- A word of opcode 0 that the decoder accepts is the encoding of NOP, which is the zero word. -/
theorem decode_opcode_zero {w : Word} (hop : opField w = 0#6) :
    decode w = if w = 0#32 then .ok .nop else .error .reservedField := by
  have hnop : Opcode.ofNumber (opField w) = some .nop := by rw [hop]; rfl
  split_ifs with hw
  · subst hw
    rfl
  · have hfields : ¬ fieldsLegal .nop w = true := fun h =>
      hw (decodedWordIsItsEncoding w .nop (decode_of_legal hnop h)).symm
    simp only [decode, hnop, hfields, Bool.false_eq_true, if_false]

/-- Settles O15: the step is that of a pending command, of which `exec` answers its own state. -/
theorem nopHasNoEffect : Obligations.NopHasNoEffect :=
  ⟨fun _ => decode_opcode_zero, fun _ => exec_nop, fun s hc hn hp =>
    stepPerformsThePendingCommand s (dropTurn s) 0#32 .nop hc hn hp rfl exec_nop⟩

/-! ## A pending command is performed (43_control.md R132, log entry 8) -/

/-- A step of a legal configuration takes one turn off the agenda and leaves the configuration. -/
theorem step_of_legal_next {s : State} (hc : configLegal s.config = true) :
    ∃ t, step s = .next t ∧ t.config = s.config ∧ t.host.agenda = s.host.agenda.tail := by
  obtain ⟨t, ht⟩ := takeTurn_next (nextTurn s) (dropTurn s)
  exact ⟨t, (step_of_legal hc).trans ht, takeTurn_config (s := dropTurn s) ht,
    takeTurn_agenda (s := dropTurn s) ht⟩

theorem nextTurn_of_nil {s : State} (h : s.host.agenda = []) : nextTurn s = .sequencer := by
  simp only [nextTurn, h]

theorem nextTurn_of_cons {s : State} {t : Turn} {rest : List Turn} (h : s.host.agenda = t :: rest) : nextTurn s = t := by
  simp only [nextTurn, h]

/-- The sequencer's turn leaves nothing pending. -/
theorem sequencerStep_pend {s t : State} (h : sequencerStep s = .next t) : t.pend = none := by
  obtain ⟨hp, h'⟩ | ⟨w, u, -, h', -⟩ := sequencerStep_cases s <;> rw [h'] at h <;> cases h
  · exact hp
  · rfl

/-- A run through the agenda and one turn more ends on a sequencer's turn. -/
theorem run_through_agenda (agenda : List Turn) :
    ∀ s : State, configLegal s.config = true → s.host.agenda = agenda →
      ∃ t, Host.Core.run Sys2Proof.core (agenda.length + 1) s = .next t ∧ t.host.agenda = [] ∧ t.pend = none := by
  induction agenda with
  | nil =>
    intro s hc ha
    obtain ⟨t, ht, -, hta⟩ := step_of_legal_next hc
    have hseq := (step_next ht).2
    rw [nextTurn_of_nil ha] at hseq
    exact ⟨t, run_succ_of_next 0 ht, by rw [hta, ha]; rfl, sequencerStep_pend hseq⟩
  | cons turn rest ih =>
    intro s hc ha
    obtain ⟨t, ht, htc, hta⟩ := step_of_legal_next hc
    obtain ⟨u, hu, hu'⟩ := ih t (htc ▸ hc) (by rw [hta, ha]; rfl)
    exact ⟨u, (run_succ_of_next _ ht).trans hu, hu'⟩

/-- After `n` steps from `s` the word is still pending and the turn is the sequencer's, and the next step performs it. -/
def PerformedAt (w : Word) (n : Nat) (s : State) : Prop :=
  ∃ u v : State, Host.Core.run Sys2Proof.core n s = .next u ∧ nextTurn u = .sequencer ∧ u.pend = some w ∧
    perform w (dropTurn u) = .next v ∧ Host.Core.run Sys2Proof.core (n + 1) s = .next { v with pend := none }

theorem performedAt_zero {s : State} {w : Word} (hc : configLegal s.config = true) (hn : nextTurn s = .sequencer)
    (hp : s.pend = some w) : PerformedAt w 0 s := by
  obtain ⟨v, hv, -⟩ := perform_cases w (dropTurn s)
  have hp' : (dropTurn s).pend = some w := hp
  have hstep : step s = .next v.retire := by
    simp only [step_of_legal hc, hn, takeTurn, sequencerStep, hp', hv, retireOutcome]
  exact ⟨s, v, rfl, hn, hp, hv, run_succ_of_next 0 hstep⟩

theorem PerformedAt.succ {s t : State} {w : Word} {n : Nat} (hst : step s = .next t) (h : PerformedAt w n t) :
    PerformedAt w (n + 1) s := by
  obtain ⟨u, v, hu, hn, hp, hv, hrun⟩ := h
  exact ⟨u, v, (run_succ_of_next n hst).trans hu, hn, hp, hv, (run_succ_of_next (n + 1) hst).trans hrun⟩

/-- A host access other than a soft reset leaves a pending command pending (20_memory.md R56, R65). -/
theorem accessEffect_pend {s : State} {w : Word} {a : Access} (hp : s.pend = some w)
    (ha : ∀ v : Word, v.getLsbD 0 = true → a ≠ .write 0x00C 4 v) : (accessEffect s a).pend = some w := by
  cases a with
  | read => exact hp
  | write off size v =>
    simp only [accessEffect]
    split_ifs with hok
    · obtain ⟨rfl, halign, hlt⟩ := accessOk_iff.1 hok
      refine storeReg_pend hp v (regAt off) fun hctrl => ?_
      obtain rfl := regAt_eq_ctrl halign hlt hctrl
      exact Bool.eq_false_iff.2 fun h0 => ha v h0 rfl
    · exact hp

/-- With no reset in the agenda, a pending word waits for the first turn of the sequencer, which performs it. -/
theorem performedAt_of_no_reset {w : Word} (agenda : List Turn) (hhard : ∀ cut, .hardReset cut ∉ agenda)
    (hsoft : ∀ v : Word, v.getLsbD 0 = true → .host (.write 0x00C 4 v) ∉ agenda) :
    ∀ s : State, configLegal s.config = true → s.host.agenda = agenda → s.pend = some w →
      ∃ n ≤ agenda.length, PerformedAt w n s := by
  induction agenda with
  | nil =>
    intro s hc ha hp
    exact ⟨0, Nat.zero_le _, performedAt_zero hc (nextTurn_of_nil ha) hp⟩
  | cons turn rest ih =>
    intro s hc ha hp
    have hn := nextTurn_of_cons ha
    cases turn with
    | sequencer => exact ⟨0, Nat.zero_le _, performedAt_zero hc hn hp⟩
    | hardReset cut => exact absurd List.mem_cons_self (hhard cut)
    | host a =>
      obtain ⟨h, hagenda, -, hstep⟩ := step_hostAccess hc hn
      have hp' : (accessEffect s a).pend = some w :=
        accessEffect_pend hp fun v hv hav => hsoft v hv (hav ▸ List.mem_cons_self)
      obtain ⟨n, hle, hperf⟩ := ih (fun cut hm => hhard cut (List.mem_cons_of_mem _ hm))
        (fun v hv hm => hsoft v hv (List.mem_cons_of_mem _ hm)) ((accessEffect s a).withHost h)
        (by rw [State.withHost_config, accessEffect_config, hc]) (by rw [State.withHost_host, hagenda, ha]; rfl) hp'
      exact ⟨n + 1, Nat.succ_le_succ hle, hperf.succ hstep⟩

/-- Settles O8: by induction on the agenda, both for where the run ends and for where the word is performed. -/
theorem pendingCommandIsEventuallyPerformed : Obligations.PendingCommandIsEventuallyPerformed := by
  intro s hc
  refine ⟨run_through_agenda _ s hc rfl, fun w hp hhard hsoft => ?_⟩
  obtain ⟨n, hle, u, v, h⟩ := performedAt_of_no_reset _ hhard hsoft s hc rfl hp
  exact ⟨n, u, v, hle, h⟩

/-! ## The end of the host's wait and of a run (43_control.md R136, 20_memory.md R61) -/

theorem busy_iff {s : State} : s.busy = true ↔ s.pend ≠ none := Option.isSome_iff_ne_none

/-- A STATUS read leaves the host waiting exactly when it already waited and the block is busy. -/
theorem awaitingAfter_status (s : State) : awaitingAfter s (.read 0x008 4) = (s.host.awaiting && s.busy) := by
  have hok : accessOk 0x008 4 = true := rfl
  have hstatus : regAt 0x008 = .status := rfl
  simp [awaitingAfter, hok, hstatus]

/-- No other access ends the wait. -/
theorem awaitingAfter_of_awaiting {s : State} {a : Access} (h : s.host.awaiting = true) (ha : a ≠ .read 0x008 4) :
    awaitingAfter s a = true := by
  cases a with
  | write => simp [awaitingAfter, h]
  | read off size =>
    have hother : (accessOk off size && decide (regAt off = .status)) = false := by
      refine Bool.eq_false_iff.2 fun h' => ha ?_
      obtain ⟨hok, hstatus⟩ := Bool.and_eq_true_iff.1 h'
      obtain ⟨rfl, halign, hlt⟩ := accessOk_iff.1 hok
      rw [regAt_eq_status halign hlt (of_decide_eq_true hstatus)]
    simp only [awaitingAfter, h, hother, Bool.false_and, Bool.not_false, Bool.and_true]

/-- No turn but a STATUS read ends the wait. -/
theorem step_awaiting {s t : State} (hst : step s = .next t) (hw : s.host.awaiting = true)
    (hn : nextTurn s ≠ .host (.read 0x008 4)) : t.host.awaiting = true := by
  obtain ⟨-, ht⟩ := step_next hst
  cases hturn : nextTurn s with
  | sequencer =>
    rw [hturn] at ht
    obtain ⟨-, hhost⟩ := sequencerStep_frame (s := dropTurn s) ht
    rw [hhost]
    exact hw
  | hardReset cut =>
    rw [hturn] at ht
    cases ht
    exact hw
  | host a =>
    rw [hturn] at ht hn
    cases ht
    exact awaitingAfter_of_awaiting (s := dropTurn s) hw fun ha => hn (by rw [ha])

/-- A host write makes a command pending only as a CMD write outside the error state. -/
theorem storeReg_accepts {s : State} {w : Word} {r : WinReg} (hp : s.pend = none) (h : (s.storeReg w r).pend ≠ none) :
    r = .cmd ∧ s.err = false := by
  cases r
  case cmd =>
    refine ⟨rfl, Bool.eq_false_iff.2 fun herr => h ?_⟩
    simp [State.storeReg, offerCommand_of_idle w hp, herr, hp]
  case ctrl =>
    refine absurd ?_ h
    simp only [State.storeReg, State.control]
    split_ifs
    · rfl
    · exact hp
    · exact hp
  all_goals exact absurd hp h

/-- An access that makes a command pending starts the wait. -/
theorem awaitingAfter_of_accepts {s : State} {a : Access} (hp : s.pend = none) (h : (accessEffect s a).pend ≠ none) :
    awaitingAfter s a = true := by
  cases a with
  | read => exact absurd hp h
  | write off size w =>
    simp only [accessEffect] at h
    split_ifs at h with hok
    · obtain ⟨hcmd, herr⟩ := storeReg_accepts hp h
      simp [awaitingAfter, hok, hcmd, herr, State.busy, hp]
    · exact absurd hp h

/-- While a command is pending the host waits: the clause of `BlockInv` that the end of a run turns on. -/
def PendingIsAwaited (s : State) : Prop := s.pend ≠ none → s.host.awaiting = true

theorem PendingIsAwaited.hostAccess {s : State} (hinv : PendingIsAwaited s) (a : Access) :
    PendingIsAwaited (hostAccess a s) := by
  intro hpend
  by_cases hp : s.pend = none
  · exact awaitingAfter_of_accepts hp hpend
  · have hw := hinv hp
    by_cases ha : a = .read 0x008 4
    · have hbusy := busy_iff.2 hp
      subst ha
      exact (awaitingAfter_status s).trans (by rw [hw, hbusy]; rfl)
    · exact awaitingAfter_of_awaiting hw ha

theorem PendingIsAwaited.step {s t : State} (hst : step s = .next t) (hinv : PendingIsAwaited s) : PendingIsAwaited t := by
  obtain ⟨-, ht⟩ := step_next hst
  cases hturn : nextTurn s with
  | sequencer =>
    rw [hturn] at ht
    exact fun hpend => absurd (sequencerStep_pend ht) hpend
  | hardReset cut =>
    rw [hturn] at ht
    cases ht
    exact fun hpend => absurd rfl hpend
  | host a =>
    rw [hturn] at ht
    cases ht
    exact PendingIsAwaited.hostAccess (s := dropTurn s) hinv a

/-- What every step keeps holds at the end of a run. -/
theorem run_keeps {P : State → Prop} (hstep : ∀ {s t : State}, step s = .next t → P s → P t) (n : Nat) :
    ∀ {s t : State}, Host.Core.run Sys2Proof.core n s = .next t → P s → P t := by
  induction n with
  | zero =>
    intro s t hrun hs
    cases hrun
    exact hs
  | succ n ih =>
    intro s t hrun hs
    cases hu : step s with
    | next u => exact ih ((run_succ_of_next n hu).symm.trans hrun) (hstep hu hs)
    | fault r => cases r
    | refused r =>
      have hu' : Sys2Proof.core.step s = .refused r := hu
      simp [Host.Core.run, hu'] at hrun

/-- Settles O48: the read returns BUSY, which ends the wait exactly when it is 0; and as a pending command is awaited, a run
that ends without a wait ends with nothing pending. -/
theorem waitAndRunEndWithNothingPending : Obligations.WaitAndRunEndWithNothingPending := by
  refine ⟨fun s hinv hc hn => ?_, fun s t => step_awaiting, fun s t n hinv hends => ?_⟩
  · have hwait : (hostAccess (.read 0x008 4) (dropTurn s)).host.awaiting = (s.host.awaiting && s.busy) :=
      awaitingAfter_status (dropTurn s)
    refine ⟨hostAccess (.read 0x008 4) (dropTurn s), s.statusImage, by rw [step_of_legal hc, hn]; rfl, rfl, ?_, ?_⟩
    · intro hend
      have hidle : s.pend = none := by
        by_contra hp
        have hbusy := busy_iff.2 hp
        simp [hwait, hinv.awaited hp, hbusy] at hend
      exact ⟨by rw [statusImage_busy, State.busy, hidle]; rfl, hidle⟩
    · intro hbusy
      rw [statusImage_busy] at hbusy
      simp [hwait, hbusy]
  · obtain ⟨hrun, ⟨-, hend⟩, -⟩ := hends
    have hinv' : PendingIsAwaited t := run_keeps PendingIsAwaited.step n hrun hinv.awaited
    by_contra hp
    simp [hinv' hp] at hend

end Sys2Proof.Machine
end

section
/-! PROOF. The family 60_exceptions.md: faults are precise, and the error state stays until CLRERR or a reset. -/

namespace Sys2Proof.Machine

/-! ## Faults are precise (60_exceptions.md R152) -/

/-- Performing a pending word either has its effect, which is not on the error state, or answers exactly the state of a fault. -/
theorem sequencerStep_precise {s : State} {w : Word} (hp : s.pend = some w) :
    ∃ t, sequencerStep s = .next t ∧ t.pend = none ∧
      ((t.err = s.err ∧ t.errCode = s.errCode ∧ t.errInfo = s.errInfo) ∨
        ∃ c : FaultCode, t = faulted s w c.number) := by
  obtain ⟨hnone, -⟩ | ⟨w', u, -, hstep, ⟨c, rfl⟩ | ⟨i, -, he⟩⟩ := sequencerStep_cases s
  · simp [hp] at hnone
  · exact ⟨_, hstep, rfl, .inr ⟨c, takeFault_eq_faulted hp c⟩⟩
  · obtain ⟨herr, hcode, hinfo, -⟩ := he.frame
    exact ⟨_, hstep, rfl, .inl ⟨herr, hcode, hinfo⟩⟩

/-- Settles O10: the step is the sequencer's, on the state with its turn taken off. -/
theorem faultsArePrecise : Obligations.FaultsArePrecise := by
  intro s w hc hn hp
  rw [step_of_legal hc, hn]
  exact sequencerStep_precise (s := dropTurn s) hp

/-! ## The error state is sticky (10_state.md R26, 60_exceptions.md R154) -/

/-- `t` is in error with the error record and CMDLAST of `s`, and nothing pending. -/
def StaysInError (s t : State) : Prop :=
  t.err = true ∧ t.errCode = s.errCode ∧ t.errInfo = s.errInfo ∧ t.cmdLast = s.cmdLast ∧ t.pend = none

theorem StaysInError.refl {s : State} (herr : s.err = true) (hp : s.pend = none) : StaysInError s s :=
  ⟨herr, rfl, rfl, rfl, hp⟩

/-- A command offered in error is dropped, with no other effect (20_memory.md R56). -/
theorem offerCommand_of_error {s : State} (w : Word) (herr : s.err = true) (hp : s.pend = none) :
    s.offerCommand w = s :=
  (offerCommand_of_idle w hp).trans (if_pos herr)

/-- CMD drops its word, CTRL without an action does nothing, and no other register is of the error state. -/
theorem storeReg_staysInError {s : State} {w : Word} {r : WinReg} (herr : s.err = true) (hp : s.pend = none)
    (hctrl : r = .ctrl → w.getLsbD 0 = false ∧ w.getLsbD 1 = false) : StaysInError s (s.storeReg w r) := by
  cases r
  case cmd =>
    have hdrop : s.storeReg w .cmd = s := offerCommand_of_error w herr hp
    rw [hdrop]
    exact .refl herr hp
  case ctrl =>
    obtain ⟨hsrst, hclrerr⟩ := hctrl rfl
    have hnone : s.storeReg w .ctrl = s := control_none hsrst hclrerr
    rw [hnone]
    exact .refl herr hp
  all_goals exact .refl herr hp

theorem accessEffect_staysInError {s : State} {a : Access} (herr : s.err = true) (hp : s.pend = none)
    (hctrl : ∀ w, a = .write 0x00C 4 w → w.getLsbD 0 = false ∧ w.getLsbD 1 = false) :
    StaysInError s (accessEffect s a) := by
  cases a with
  | read => exact .refl herr hp
  | write off size w =>
    simp only [accessEffect]
    split_ifs with hok
    · obtain ⟨rfl, halign, hlt⟩ := accessOk_iff.1 hok
      refine storeReg_staysInError herr hp fun hreg => ?_
      obtain rfl := regAt_eq_ctrl halign hlt hreg
      exact hctrl w rfl
    · exact .refl herr hp

/-- Settles O14: the sequencer has nothing to perform, and a host access without an action of CTRL keeps the error state. -/
theorem errorStateIsSticky : Obligations.ErrorStateIsSticky := by
  intro s t herr hp hst hreset hctrl
  obtain ⟨-, ht⟩ := step_next hst
  cases hn : nextTurn s with
  | sequencer =>
    have hidle : sequencerStep (dropTurn s) = .next (dropTurn s) := by simp [sequencerStep, hp]
    rw [hn, takeTurn, hidle] at ht
    cases ht
    exact StaysInError.refl (s := dropTurn s) herr hp
  | hardReset cut => exact absurd hn (hreset cut)
  | host a =>
    rw [hn] at ht
    cases ht
    exact accessEffect_staysInError (s := dropTurn s) herr hp fun w ha => hctrl w (by rw [hn, ha])

end Sys2Proof.Machine
end

section
/-! PROOF. The family 70_reset_and_hazards.md: a soft reset leaves the reset state on either side of a command's step, and an
access that keeps the hazard rule commutes with that step. -/

namespace Sys2Proof.Machine

/-! ## A change of the state that the sequencer's step passes through (43_control.md R132) -/

theorem retireOutcome_mapNext {f : State → State} (hretire : ∀ u, (f u).retire = f u.retire)
    (o : Host.Outcome State Fault Refusal) : retireOutcome (mapNext f o) = mapNext f (retireOutcome o) := by
  cases o with
  | next u => exact congrArg Host.Outcome.next (hretire u)
  | fault => rfl
  | refused => rfl

/-- What commutes with performing the pending word and leaves PEND alone commutes with the sequencer's step. -/
theorem sequencerStep_mapNext {f : State → State} {s : State} (hpend : (f s).pend = s.pend)
    (hretire : ∀ u, (f u).retire = f u.retire)
    (hperform : ∀ w, s.pend = some w → perform w (f s) = mapNext f (perform w s)) :
    sequencerStep (f s) = mapNext f (sequencerStep s) := by
  cases hp : s.pend with
  | none => simp only [sequencerStep, hpend, hp, mapNext]
  | some w => simp only [sequencerStep, hpend, hp, hperform w hp, retireOutcome_mapNext hretire]

theorem perform_withHost (w : Word) (s : State) (h : HostSide) :
    perform w (s.withHost h) = mapNext (fun t => t.withHost h) (perform w s) := by
  cases hd : decode w with
  | ok i => simpa only [perform, hd] using exec_withHost i s h
  | error e => simp only [perform, hd]; rfl

/-- The sequencer's step, of any word or of none, does not see the host's side. -/
theorem sequencerStep_withHost_of_next {s t : State} (hst : sequencerStep s = .next t) (h : HostSide) :
    sequencerStep (s.withHost h) = .next (t.withHost h) := by
  rw [sequencerStep_mapNext (f := fun u => u.withHost h) rfl (fun _ => rfl) fun w _ => perform_withHost w s h, hst]
  rfl

/-! ## One turn of a given agenda (20_memory.md R61) -/

section
variable {s : State} (hc : configLegal s.config = true) {h : HostSide} {rest : List Turn}
include hc

theorem step_sequencer_first (hagenda : h.agenda = .sequencer :: rest) {t : State} (hst : sequencerStep s = .next t) :
    step (s.withHost h) = .next (t.withHost { h with agenda := rest }) := by
  rw [step_of_legal (s := s.withHost h) hc, nextTurn_of_cons hagenda, dropTurn, State.withHost_host, hagenda]
  exact sequencerStep_withHost_of_next hst _

theorem step_host_first {a : Access} (hagenda : h.agenda = .host a :: rest) :
    step (s.withHost h) = .next ((accessEffect s a).withHost
      { agenda := rest, reply := some (busReply s a), awaiting := awaitingAfter (s.withHost h) a }) := by
  rw [step_of_legal (s := s.withHost h) hc, nextTurn_of_cons hagenda, dropTurn, State.withHost_host, hagenda, takeTurn,
    hostAccess, State.withHost_withHost, accessEffect_withHost, busReply_withHost]
  cases a <;> rfl

end

/-! ## A soft reset and a command's step (70_reset_and_hazards.md R195) -/

theorem accessEffect_softReset (s : State) {w : Word} (hw : w.getLsbD 0 = true) :
    accessEffect s (.write 0x00C 4 w) = (State.resetWith s.config).withHost s.host :=
  control_srst hw

/-- Settles O43: after the reset nothing is pending, and a reset after the step overwrites whatever the step left. -/
theorem softResetDiscardsOrClears : Obligations.SoftResetDiscardsOrClears := by
  intro s rest w hc hw
  obtain ⟨u, hu⟩ := takeTurn_next .sequencer s
  have hconfig : u.config = s.config := takeTurn_config hu
  have hidle : sequencerStep (State.resetWith s.config) = .next (State.resetWith s.config) := rfl
  have hdiscarded := step_host_first hc (h := { s.host with agenda := .host (.write 0x00C 4 w) :: .sequencer :: rest }) rfl
  have hcleared := step_host_first (hconfig ▸ hc) (h := { s.host with agenda := .host (.write 0x00C 4 w) :: rest }) rfl
  rw [accessEffect_softReset _ hw, State.withHost_withHost] at hdiscarded hcleared
  rw [hconfig] at hcleared
  exact ⟨_, _, run_two hdiscarded (step_sequencer_first (s := State.resetWith s.config) hc rfl hidle),
    run_two (step_sequencer_first hc rfl hu) hcleared⟩

/-! ## The accesses that keep the hazard rule (70_reset_and_hazards.md R191) -/

section
variable {w : Word} {off size : Nat} (hok : accessOk off size = true)
include hok

theorem hazardFreeWord_read (h : hazardFreeWord w (.read off size) = true) :
    regAt off ≠ .status ∧ regAt off ≠ .errInfo ∧ ∀ i, decode w = .ok i → commandWrites i (regAt off) = false := by
  cases hd : decode w with
  | error e => simpa [hazardFreeWord, hd, hok] using h
  | ok i =>
    obtain ⟨⟨hwrites, hstatus⟩, herrInfo⟩ : (commandWrites i (regAt off) = false ∧ regAt off ≠ .status) ∧
        regAt off ≠ .errInfo := by simpa [hazardFreeWord, hazardFree, stepWrites, hd, hok] using h
    exact ⟨hstatus, herrInfo, by rintro _ ⟨⟩; exact hwrites⟩

theorem hazardFreeWord_write {v : Word} (h : hazardFreeWord w (.write off size v) = true) :
    regAt off ≠ .cmd ∧ regAt off ≠ .ctrl ∧
      ∀ i, decode w = .ok i → commandReads i (regAt off) = false ∧ commandWrites i (regAt off) = false := by
  cases hd : decode w with
  | error e => simpa [hazardFreeWord, hd, hok] using h
  | ok i =>
    obtain ⟨⟨⟨hcmd, hctrl⟩, hreads⟩, hwrites⟩ : ((regAt off ≠ .cmd ∧ regAt off ≠ .ctrl) ∧
        commandReads i (regAt off) = false) ∧ commandWrites i (regAt off) = false := by
      simpa [hazardFreeWord, hazardFree, hd, hok] using h
    exact ⟨hcmd, hctrl, by rintro _ ⟨⟩; exact ⟨hreads, hwrites⟩⟩

end

/-- Such an access is neither the CMD write that starts the host's wait nor the STATUS read that ends it. -/
theorem awaitingAfter_of_hazardFree {w : Word} {a : Access} (s : State) (h : hazardFreeWord w a = true) :
    awaitingAfter s a = s.host.awaiting := by
  cases a with
  | read off size =>
    cases hok : accessOk off size with
    | false => simp [awaitingAfter, hok]
    | true => simp [awaitingAfter, hok, (hazardFreeWord_read hok h).1]
  | write off size v =>
    cases hok : accessOk off size with
    | false => simp [awaitingAfter, hok]
    | true => simp [awaitingAfter, hok, (hazardFreeWord_write hok h).1]

/-! ## Such an access and a command's step (20_memory.md R63) -/

section
variable {s t : State} {w : Word} (hp : s.pend = some w) (hst : sequencerStep s = .next t)
include hp hst

/-- The step writes STATUS, ERRINFO and the registers its command names, and no other. -/
theorem sequencerStep_image {r : WinReg} (hstatus : r ≠ .status) (herrInfo : r ≠ .errInfo)
    (hwrites : ∀ i, decode w = .ok i → commandWrites i r = false) : t.image r = s.image r := by
  obtain ⟨hnone, -⟩ | ⟨w', u, hp', hst', hu⟩ := sequencerStep_cases s
  · simp [hp] at hnone
  · obtain rfl : w = w' := Option.some.inj (hp.symm.trans hp')
    obtain rfl : t = u.retire := by simpa using hst.symm.trans hst'
    rw [image_retire u hstatus]
    obtain ⟨c, rfl⟩ | ⟨i, hd, he⟩ := hu
    · exact image_takeFault s c hstatus herrInfo
    · exact he.image (hwrites i hd)

/-- A write of a register the pending command neither reads nor writes passes through its step. -/
theorem sequencerStep_storeReg {v : Word} {r : WinReg} (hcmd : r ≠ .cmd) (hctrl : r ≠ .ctrl)
    (hfree : ∀ i, decode w = .ok i → commandReads i r = false ∧ commandWrites i r = false) :
    sequencerStep (s.storeReg v r) = .next (t.storeReg v r) := by
  obtain ⟨-, -, -, hpend, -⟩ := storeReg_fixed (s := s) (w := v) hcmd hctrl
  have hperform : perform w (s.storeReg v r) = mapNext (fun u => u.storeReg v r) (perform w s) := by
    cases hd : decode w with
    | ok i => simpa only [perform, hd] using exec_storeReg hcmd hctrl i (hfree i hd).1 (hfree i hd).2
    | error e => simp only [perform, hd, raiseFault, takeFault_storeReg hcmd hctrl, mapNext]
  have hmap := sequencerStep_mapNext (f := fun u => u.storeReg v r) hpend (fun _ => retire_storeReg hcmd hctrl)
    fun w' hp' => Option.some.inj (hp.symm.trans hp') ▸ hperform
  rw [hmap, hst]
  rfl

theorem sequencerStep_accessEffect {a : Access} (hfree : hazardFreeWord w a = true) :
    sequencerStep (accessEffect s a) = .next (accessEffect t a) := by
  cases a with
  | read => exact hst
  | write off size v =>
    simp only [accessEffect]
    split_ifs with hok
    · obtain ⟨hcmd, hctrl, hregs⟩ := hazardFreeWord_write hok hfree
      exact sequencerStep_storeReg hp hst hcmd hctrl hregs
    · exact hst

theorem busReply_sequencerStep {a : Access} (hfree : hazardFreeWord w a = true) : busReply t a = busReply s a := by
  cases a with
  | write => rfl
  | read off size =>
    simp only [busReply, State.memRead]
    split_ifs with hok
    · obtain ⟨hstatus, herrInfo, hwrites⟩ := hazardFreeWord_read hok hfree
      rw [sequencerStep_image hp hst hstatus herrInfo hwrites]
    · rfl

end

/-- Settles O49: in both orders the access has its effect on what the step leaves, with one reply, and the host's wait stays. -/
theorem hazardFreeAccessCommutes : Obligations.HazardFreeAccessCommutes := by
  intro s rest w a hc hp hfree
  obtain ⟨u, hu⟩ := takeTurn_next .sequencer s
  have hconfig : configLegal u.config = true := (takeTurn_config hu).symm ▸ hc
  have hconfig' : configLegal (accessEffect s a).config = true := (accessEffect_config s a).symm ▸ hc
  have hbefore := step_host_first hc (h := { s.host with agenda := .host a :: .sequencer :: rest }) rfl
  have hafter := step_host_first hconfig (h := { s.host with agenda := .host a :: rest }) rfl
  rw [awaitingAfter_of_hazardFree _ hfree] at hbefore hafter
  rw [busReply_sequencerStep hp hu hfree] at hafter
  exact ⟨_, run_two (step_sequencer_first hc rfl hu) hafter,
    run_two hbefore (step_sequencer_first hconfig' rfl (sequencerStep_accessEffect hp hu hfree))⟩

end Sys2Proof.Machine
end

section
/-! PROOF. The invariants of the block: they hold at reset and every step keeps them; the configuration never changes, and the
sequencer's turn passes when nothing is pending. -/

namespace Sys2Proof.Machine

/-! ## The turn that passes and the configuration (10_state.md R23, R40, 60_exceptions.md R166) -/

theorem sequencerStep_of_idle {s : State} (hp : s.pend = none) : sequencerStep s = .next s := by
  simp only [sequencerStep, hp]

/-- Settles O9: the step is the sequencer's turn on the state with that turn taken off. -/
theorem idleSequencerKeepsAllState : Obligations.IdleSequencerKeepsAllState := by
  intro s hc hn hp
  rw [step_of_legal hc, hn]
  exact sequencerStep_of_idle (s := dropTurn s) hp

/-- Settles O47: no turn changes the configuration. -/
theorem configurationIsFixed : Obligations.ConfigurationIsFixed := by
  intro s t hst
  obtain ⟨-, ht⟩ := step_next hst
  exact takeTurn_config (s := dropTurn s) ht

/-! ## The invariants at reset (10_state.md R42, 70_reset_and_hazards.md R182) -/

/-- Settles O45: every register is 0, but for the code of the configured matrix, where there is one. -/
theorem blockInvariantsAtReset : Obligations.BlockInvariantsAtReset := by
  intro c hc
  exact {
    codebook := codebookInv_resetBlock (s := State.resetWith c) hc
    dminZero := fun hcfg => by
      have hnone : c.gReset = none := Option.not_isSome_iff_eq_none.1 (Bool.eq_false_iff.1 hcfg)
      simp only [State.resetWith, hnone]
    vectors := fun i j _ => by simp [State.readV, State.resetWith, VecReg.zero]
    samples := fun i k j _ => by simp [State.readS, State.resetWith, SoftReg.zero]
    noError := fun _ => ⟨rfl, rfl⟩
    errorCode := nofun
    noCommandInError := fun _ => rfl
    pendingReadable := nofun
    awaited := fun hp => absurd rfl hp }

/-! ## The host's side and reset (log entries 6 and 19) -/

/-- Of the host's side the invariants speak only of the wait. -/
theorem BlockInv.withHost {s : State} (hinv : BlockInv s) {h : HostSide} (hwait : s.pend ≠ none → h.awaiting = true) :
    BlockInv (s.withHost h) :=
  { hinv with awaited := hwait }

/-- Both kinds of reset lead to the invariants from any state, and under any host side, as nothing is pending after them. -/
theorem blockInv_resetBlock {s : State} (hc : configLegal s.config = true) (h : HostSide) :
    BlockInv (s.resetBlock.withHost h) :=
  (blockInvariantsAtReset s.config hc).withHost fun hp => absurd rfl hp

/-! ## Host writes (20_memory.md R54, R56, 10_state.md R26, R27, R30) -/

/-- A written vector is masked to its length (10_state.md R27). -/
theorem VecReg.ofImage_masked (w : Word) {j : Nat} (hj : (VecReg.ofImage w).len.toNat ≤ j) :
    (VecReg.ofImage w).data.getLsbD j = false := by
  have hbound : ¬ j < min (w.extractLsb' 16 4).toNat maxDim := fun h => Nat.not_lt.2 hj (lt_min_iff.1 h).1
  simp only [VecReg.ofImage, pack_getLsbD, hbound, decide_false, Bool.false_and]

/-- A stored sample has SW bits (10_state.md R30). -/
theorem storedSample_getLsbD_of_le {c : Config} (w : Word) {j : Nat} (hj : c.sw ≤ j) :
    (storedSample c w).getLsbD j = false := by
  simp [storedSample, Nat.not_lt.2 hj]

/-- A register file after a write of register `i`. -/
theorem getElem_set_fin {α : Type} {n : Nat} (v : Vector α n) (i k : Fin n) (x : α) :
    (v.set i x)[k] = if k = i then x else v[k] := by
  rw [Fin.getElem_fin, Vector.getElem_set]
  exact if_congr (by rw [Fin.ext_iff, eq_comm]) rfl rfl

theorem readV_storeReg_vec (s : State) (w : Word) (i k : VIdx) :
    (s.storeReg w (.vec i)).readV k = if k = i then VecReg.ofImage w else s.readV k :=
  getElem_set_fin s.v i k _

theorem readS_storeReg_sample (s : State) (w : Word) (i i' : SIdx) (k : Fin 10) :
    (s.storeReg w (.sample i k)).readS i' =
      if i' = i then { s.readS i with samples := (s.readS i).samples.set k (storedSample s.config w) }
      else s.readS i' :=
  getElem_set_fin s.soft i i' _

theorem readS_storeReg_softLen (s : State) (w : Word) (i i' : SIdx) :
    (s.storeReg w (.softLen i)).readS i' =
      if i' = i then { s.readS i with len := w.extractLsb' 0 4 } else s.readS i' :=
  getElem_set_fin s.soft i i' _

section
variable {s : State} (hinv : BlockInv s)
include hinv

/-- A command is accepted only outside the error state, and CMD then reads it. -/
theorem BlockInv.offerCommand (w : Word) {h : HostSide} (hwait : (s.offerCommand w).pend ≠ none → h.awaiting = true) :
    BlockInv ((s.offerCommand w).withHost h) := by
  by_cases hp : s.pend = none
  · rw [offerCommand_of_idle w hp] at hwait ⊢
    split_ifs at hwait ⊢ with herr
    · exact hinv.withHost hwait
    · exact { hinv with
        noCommandInError := fun herr' => absurd herr' herr
        pendingReadable := fun _ hw => Option.some.inj hw
        awaited := hwait }
  · rw [offerCommand_of_busy w hp] at hwait ⊢
    exact { hinv with awaited := hwait }

theorem BlockInv.clearError : BlockInv s.clearError :=
  { hinv with
    noError := fun _ => ⟨rfl, rfl⟩
    errorCode := nofun
    noCommandInError := nofun }

theorem BlockInv.control (hc : configLegal s.config = true) (w : Word) {h : HostSide}
    (hwait : (s.control w).pend ≠ none → h.awaiting = true) : BlockInv ((s.control w).withHost h) := by
  cases hsrst : w.getLsbD 0
  · cases hclrerr : w.getLsbD 1
    · rw [control_none hsrst hclrerr] at hwait ⊢
      exact hinv.withHost hwait
    · rw [control_clrerr hsrst hclrerr] at hwait ⊢
      exact hinv.clearError.withHost hwait
  · rw [control_srst hsrst]
    exact blockInv_resetBlock hc h

/-- A host write keeps the invariants, under a host side that waits if the write left a command pending. -/
theorem BlockInv.storeReg (hc : configLegal s.config = true) (w : Word) (r : WinReg) {h : HostSide}
    (hwait : (s.storeReg w r).pend ≠ none → h.awaiting = true) : BlockInv ((s.storeReg w r).withHost h) := by
  cases r with
  | cmd => exact hinv.offerCommand w hwait
  | ctrl => exact hinv.control hc w hwait
  | vec i =>
    refine { hinv with awaited := hwait, vectors := fun k j hj => ?_ }
    rw [State.readV_withHost, readV_storeReg_vec] at hj ⊢
    split_ifs at hj ⊢
    · exact VecReg.ofImage_masked w hj
    · exact hinv.vectors k j hj
  | sample i k =>
    refine { hinv with awaited := hwait, samples := fun i' k' j hj => ?_ }
    rw [State.readS_withHost, readS_storeReg_sample]
    split_ifs
    · rw [getElem_set_fin]
      split_ifs
      · exact storedSample_getLsbD_of_le w hj
      · exact hinv.samples i k' j hj
    · exact hinv.samples i' k' j hj
  | softLen i =>
    refine { hinv with awaited := hwait, samples := fun i' k' j hj => ?_ }
    rw [State.readS_withHost, readS_storeReg_softLen]
    split_ifs
    · exact hinv.samples i k' j hj
    · exact hinv.samples i' k' j hj
  | _ => exact { hinv with awaited := hwait }

/-- A host access keeps the invariants: the wait after it is `PendingIsAwaited`, the rest the effect of a write. -/
theorem BlockInv.hostAccess (hc : configLegal s.config = true) (a : Access) : BlockInv (hostAccess a s) := by
  have hwait : PendingIsAwaited (Machine.hostAccess a s) := PendingIsAwaited.hostAccess hinv.awaited a
  cases a with
  | read => exact hinv.withHost hwait
  | write off size w =>
    simp only [Machine.hostAccess, accessEffect] at hwait ⊢
    split_ifs at hwait ⊢
    · exact hinv.storeReg hc w (regAt off) hwait
    · exact hinv.withHost hwait

end

/-! ## The sequencer's step (43_control.md R132, 60_exceptions.md R151, R152) -/

theorem FaultCode.number_bounds (c : FaultCode) : 1 ≤ c.number.toNat ∧ c.number.toNat ≤ 8 := by
  cases c <;> decide

section
variable {s : State} (hinv : BlockInv s)
include hinv

/-- A fault records one of the eight codes and leaves nothing pending. -/
theorem BlockInv.takeFault (c : FaultCode) : BlockInv (s.takeFault c) :=
  { hinv with
    noError := nofun
    errorCode := fun _ => c.number_bounds
    noCommandInError := fun _ => rfl
    pendingReadable := nofun
    awaited := fun hp => absurd rfl hp }

theorem BlockInv.retire : BlockInv s.retire :=
  { hinv with
    noCommandInError := fun _ => rfl
    pendingReadable := nofun
    awaited := fun hp => absurd rfl hp }

/-- The code after a command's effect: as it was, or the one a GLOAD installed. -/
theorem BlockInv.code_of_effect {i : Instr} {t : State} (he : Effect i s t) :
    CodebookInv t ∧ (t.cfg = false → t.dmin = 0#4) := by
  by_cases hgload : ∃ a, i = .gload a
  · obtain ⟨a, rfl⟩ := hgload
    obtain ⟨hinj, rfl⟩ := he
    exact ⟨fun _ => codebookOf_install hinj, nofun⟩
  · have hsame : SameCode s t := he.code (not_exists.1 hgload)
    refine ⟨hinv.codebook.of_sameCode hsame, fun h => ?_⟩
    obtain ⟨-, -, hdmin, hcfg⟩ := hsame
    exact hdmin.trans (hinv.dminZero (hcfg.symm.trans h))

/-- A command's effect is on the code, on vectors it masks, and on registers the invariants do not speak of. -/
theorem BlockInv.effect {i : Instr} {t : State} (he : Effect i s t) : BlockInv t := by
  obtain ⟨herr, hcode, hinfo, hpend, -, hcmdLast, hsoft, hconfig, hhost⟩ := he.frame
  obtain ⟨hcodebook, hdmin⟩ := hinv.code_of_effect he
  have hreadS : t.readS = s.readS := by funext k; simp only [State.readS, hsoft]
  refine ⟨hcodebook, hdmin, fun k j hj => ?_, ?_, ?_, ?_, ?_, ?_, ?_⟩
  · obtain hsame | ⟨n, f, hresult⟩ := he.vectors k
    · rw [hsame] at hj ⊢
      exact hinv.vectors k j hj
    · rw [hresult] at hj ⊢
      simp [Nat.not_lt.2 hj]
  · rw [hreadS, hconfig]; exact hinv.samples
  · rw [herr, hcode, hinfo]; exact hinv.noError
  · rw [herr, hcode]; exact hinv.errorCode
  · rw [herr, hpend]; exact hinv.noCommandInError
  · rw [hpend, hcmdLast]; exact hinv.pendingReadable
  · rw [hpend, hhost]; exact hinv.awaited

theorem BlockInv.sequencerStep {t : State} (h : sequencerStep s = .next t) : BlockInv t := by
  obtain ⟨-, h'⟩ | ⟨w, u, -, h', hu⟩ := sequencerStep_cases s <;> rw [h'] at h <;> cases h
  · exact hinv
  · obtain ⟨c, rfl⟩ | ⟨i, -, he⟩ := hu
    · exact (hinv.takeFault c).retire
    · exact (hinv.effect he).retire

end

/-! ## Every step (20_memory.md R61) -/

/-- Settles O44: each kind of turn keeps the invariants, which do not see it taken off the agenda. -/
theorem blockInvariantsKept : Obligations.BlockInvariantsKept := by
  intro s t hinv hst
  obtain ⟨hc, ht⟩ := step_next hst
  have hdrop : BlockInv (dropTurn s) := hinv.withHost hinv.awaited
  cases hn : nextTurn s with
  | sequencer =>
    rw [hn] at ht
    exact hdrop.sequencerStep ht
  | hardReset cut =>
    rw [hn] at ht
    cases ht
    exact blockInv_resetBlock (s := dropTurn s) hc _
  | host a =>
    rw [hn] at ht
    cases ht
    exact hdrop.hostAccess hc a

end Sys2Proof.Machine
end
